-- ==== Sys2Proof/Word.lean ====
section
/-! DEFINITION. The engine's value types: words, bytes, indices, port words, tables (00_scope.md R5, R8, R9). -/

namespace Sys2Proof

/-- A word is 32 bits, unsigned (R8). -/
abbrev Word := BitVec 32

/-- A byte is 8 bits, unsigned (R8). -/
abbrev Byte := BitVec 8

/-- An index into `P` or `Q`, 0..1023 (R60, R65). Ten bits, so no index is out of range. -/
abbrev Index := BitVec 10

/-- A command word or a response word at a port: 40 bits (R93, R94, R99). -/
abbrev PortWord := BitVec 40

/-- The 32-byte key or IV buffer (R22, R23). -/
abbrev Buffer := Vector Byte 32

/-- The contents of a table all of whose 1024 entries have been written (R27, R28). -/
abbrev Words := Vector Word 1024

/-- One table as State holds it: the entries written since the last reset or `NEW`, each an index and its
word, indices strictly rising. An index that is not listed holds no value (R40; log 4). The cell is a word
because a table is only ever moved as whole words (R64, R67). -/
abbrev Table := List (Nat × Word)

end Sys2Proof
end

