-- ==== Sys2Proof/Config.lean ====
section
/-! DEFINITION. What one engine fixes: the sizes of R5, and the open latencies of R281 as free values. -/

namespace Sys2Proof.Config

/-- Expansion steps of `INIT`: `W[16]` to `W[2559]` (R172). -/
def expansionSteps : Nat := 2544

/-- Warm-up steps of `INIT` (R175: "The number 4096 is fixed"). -/
def warmUpSteps : Nat := 4096

/-- FREE VALUE, log 3 (R281, D18: OPEN). `T_CMD - 1` of the command with this serial number: the edges that
pass after the one that follows acceptance before `rsp_valid` is 1. -/
opaque cmdWait : Nat → Nat

/-- FREE VALUE, log 3 (R281, R286, U13). `T_INIT - 1` of the command with this serial number; it may depend on
the key and the IV. -/
opaque initWait : Nat → Buffer → Buffer → Nat

/-- FREE VALUE, log 3 (R281, R286, U13). `T_XOR - 1` of the command with this serial number; it may depend on
the data and on the two tables. -/
opaque xorWait : Nat → Word → Table → Table → Nat

end Sys2Proof.Config
end

