-- ==== Sys2Proof/Syntax.lean ====
section
/-! DEFINITION. The engine's instructions: one constructor per row of spec/opcode_table.json (30_encoding.md R95). -/

namespace Sys2Proof

/-- The mode operand of `INIT` and the direction flag `DIR` (R33, R103): 0 is Encrypt, 1 is Decrypt. -/
inductive Mode where
  | encrypt
  | decrypt
  deriving DecidableEq, Repr

/-- The commands of R95 and the table's three reserved rows. Fields a command does not use are not part of it:
a word in which such a field is not zero is no instruction (R97). -/
inductive Instr where
  /-- `NEW` (R150). -/
  | new
  /-- `KEYB b` (R151). -/
  | keyb (b : Byte)
  /-- `IVB b` (R152). -/
  | ivb (b : Byte)
  /-- `INIT m` (R170). -/
  | init (m : Mode)
  /-- `XOR n, d` (R210). The row takes every `n`; the command itself refuses `n` outside 1..4. -/
  | xor (n : BitVec 4) (d : Word)
  /-- `STAT` (R230). -/
  | stat
  /-- Row `RESERVED_0`: opcode 0x0, the other 36 bits not examined (R242). -/
  | reserved0 (x : BitVec 36)
  /-- Row `RESERVED_7`: opcode 0x7, the other 36 bits not examined (R242). -/
  | reserved7 (x : BitVec 36)
  /-- Row `RESERVED_8_F`: bit 39 set, the other 39 bits not examined beyond that (R242). -/
  | reserved8F (x : BitVec 39)
  deriving DecidableEq, Repr

end Sys2Proof
end

