-- ==== Sys2Proof/WellFormed.lean ====
section
/-! DEFINITION. Which instructions hold only field values their command allows (30_encoding.md R97). -/

namespace Sys2Proof

/-- R97, R101: the byte count of `XOR` is 1, 2, 3 or 4. Every other field of an instruction may hold any value
of its type: the unused fields that must be zero are not part of `Instr`. -/
def Instr.wellFormed : Instr → Bool
  | .new => true
  | .keyb _ => true
  | .ivb _ => true
  | .init _ => true
  | .xor n _ => decide (1 ≤ n.toNat ∧ n.toNat ≤ 4)
  | .stat => true
  | .reserved0 _ => true
  | .reserved7 _ => true
  | .reserved8F _ => true

/-- An instruction is well-formed when its check says so. -/
abbrev Instr.WellFormed (i : Instr) : Prop := i.wellFormed = true

end Sys2Proof
end

