-- ==== Sys2Proof/Decode.lean ====
section
/-! DEFINITION. Command words to instructions and back (30_encoding.md R93, R95, R97 to R100, R103, R110). -/

namespace Sys2Proof

/-- Why a command word is no instruction: a valid opcode with a field the command does not allow (R97). Each
is answered with `ERR_ARG` (R243). -/
inductive Reject where
  /-- `NEW` with `n` or `d` not zero. -/
  | newField
  /-- `KEYB` with `n` or `d[31:8]` not zero. -/
  | keybField
  /-- `IVB` with `n` or `d[31:8]` not zero. -/
  | ivbField
  /-- `INIT` with `n` or `d[31:1]` not zero. -/
  | initField
  /-- `STAT` with `n` or `d` not zero. -/
  | statField
  deriving DecidableEq, Repr

/-- `op = cw[39:36]` (R93). -/
def opField (cw : PortWord) : BitVec 4 := cw.extractLsb' 36 4

/-- `n = cw[35:32]` (R93). -/
def nField (cw : PortWord) : BitVec 4 := cw.extractLsb' 32 4

/-- `d = cw[31:0]` (R93). -/
def dField (cw : PortWord) : Word := cw.extractLsb' 0 32

/-- The mode in `d[0]` (R103). -/
def Mode.ofBit (b : Bool) : Mode := if b then .decrypt else .encrypt

/-- The bit of a mode: 0 Encrypt, 1 Decrypt (R33, R103). -/
def Mode.bit : Mode → BitVec 1
  | .encrypt => 0#1
  | .decrypt => 1#1

/-- The instruction of a command word, or why there is none: lines 1 and 2 of R100 for the opcode and the unused
fields. `RDY` (line 3) and the count of `XOR` are looked at by the commands themselves, in the order of R245. -/
def decode (cw : PortWord) : Except Reject Instr :=
  let op := opField cw
  let n := nField cw
  let d := dField cw
  if op = 0x0#4 then .ok (.reserved0 (cw.extractLsb' 0 36))
  else if op = 0x1#4 then
    if n = 0#4 ∧ d = 0#32 then .ok .new else .error .newField
  else if op = 0x2#4 then
    if n = 0#4 ∧ d.extractLsb' 8 24 = 0#24 then .ok (.keyb (d.extractLsb' 0 8)) else .error .keybField
  else if op = 0x3#4 then
    if n = 0#4 ∧ d.extractLsb' 8 24 = 0#24 then .ok (.ivb (d.extractLsb' 0 8)) else .error .ivbField
  else if op = 0x4#4 then
    if n = 0#4 ∧ d.extractLsb' 1 31 = 0#31 then .ok (.init (Mode.ofBit (d.getLsbD 0))) else .error .initField
  else if op = 0x5#4 then .ok (.xor n d)
  else if op = 0x6#4 then
    if n = 0#4 ∧ d = 0#32 then .ok .stat else .error .statField
  else if op = 0x7#4 then .ok (.reserved7 (cw.extractLsb' 0 36))
  else .ok (.reserved8F (cw.extractLsb' 0 39))

/-- The command word of an instruction: `{op, n, d}` (R93, R95, R110). -/
def encode : Instr → PortWord
  | .new => 0x1#4 ++ 0#4 ++ 0#32
  | .keyb b => 0x2#4 ++ 0#4 ++ (0#24 ++ b)
  | .ivb b => 0x3#4 ++ 0#4 ++ (0#24 ++ b)
  | .init m => 0x4#4 ++ 0#4 ++ (0#31 ++ m.bit)
  | .xor n d => 0x5#4 ++ n ++ d
  | .stat => 0x6#4 ++ 0#4 ++ 0#32
  | .reserved0 x => 0x0#4 ++ x
  | .reserved7 x => 0x7#4 ++ x
  | .reserved8F x => 0x1#1 ++ x

/-- The instruction the decoder reads from a word numbered as the opcode table numbers it. Every command is one
40-bit word taken whole at the port (R99), so there is no byte layout; bits above `nbits` are 0 (log 9). -/
def decodeTableWord (nbits w : Nat) : Option Instr :=
  if nbits ≤ 40 then
    match decode (BitVec.ofNat 40 (w % 2 ^ nbits)) with
    | .ok i => some i
    | .error _ => none
  else none

end Sys2Proof
end

