-- ==== Sys2Proof/Machine/State.lean ====
section
/-! DEFINITION. The state of the engine (10_state.md R21, R39), its port (30_encoding.md R90 to R92), and why a step
can stop. -/

namespace Sys2Proof.Machine

/-- The two tables of a generator step (R27, R28, R190). -/
inductive TableName where
  | p
  | q
  deriving DecidableEq, Repr

/-- Why the machine stops. -/
inductive Fault where
  /-- Raised by a generator step of `XOR` that reads an entry of a table nothing has written since the last reset or
  `NEW` (R40, U1: "a read of an unwritten entry a fault"). Safe: no command sequence from reset reaches it (R41(c)). -/
  | unwrittenEntry (table : TableName) (index : Nat)
  deriving DecidableEq, Repr

/-- Why a step has no meaning. A refusal of the ENGINE (R241) is not this: it is a next state. -/
inductive Refusal where
  /-- Raised by `exec` for an instruction without a meaning. Safe. No arm of this model uses it. -/
  | notModelled (mnemonic : String)
  deriving DecidableEq, Repr

/-- The status codes of a response (R96). Codes 0x4 to 0xF are never produced, so there is no name for them (U11). -/
inductive Status where
  | ok
  | errOp
  | errSeq
  | errArg
  deriving DecidableEq, Repr

/-- A response: `{st, n, d}` (R94). -/
structure Response where
  st : Status
  n : BitVec 4
  d : Word
  deriving DecidableEq, Repr

/-- What the host drives on one rising edge of `clk` (the inputs of R90). -/
structure Pins where
  rst : Bool
  cmdValid : Bool
  cmdWord : PortWord
  rspReady : Bool
  deriving DecidableEq, Repr

/-- The two ports between edges (R90 to R92): ready for a command, or holding one command whose response will be
valid after `wait` more edges (valid now if `wait` is 0). -/
inductive Port where
  | ready
  | inFlight (wait : Nat) (rsp : Response)
  deriving DecidableEq, Repr

/-- Everything the engine holds between two edges: the ten fields of R21, the port, and three fields of the model's
own (`pins`, `served`, `delivered`; logs 1, 2, 3). -/
structure State where
  /-- `KEY` (R22). -/
  key : Buffer
  /-- `IV` (R23). -/
  iv : Buffer
  /-- `KLEN` (R24). -/
  klen : BitVec 6
  /-- `IVLEN` (R24). -/
  ivlen : BitVec 6
  /-- `P` (R27). -/
  p : Table
  /-- `Q` (R28). -/
  q : Table
  /-- `CTR` (R31). -/
  ctr : BitVec 11
  /-- `RDY` (R32). -/
  rdy : Bool
  /-- `DIR` (R33). -/
  dir : Mode
  /-- `ERR` (R34). -/
  err : Bool
  /-- The command and response ports (R90 to R92). -/
  port : Port
  /-- What the host drives on the coming edges, the next edge first (log 1). -/
  pins : List Pins
  /-- How many commands have been accepted: the serial number the free latencies are applied to (log 3). -/
  served : Nat
  /-- The responses delivered to the host, the oldest first (log 2). -/
  delivered : List Response
  deriving DecidableEq, Repr

/-- The reset state (R39, R270). `P` and `Q` are unspecified: no entry holds a value (R40, log 4). The last three
fields are the model's own (logs 1, 2, 3). -/
def State.reset : State where
  key := Vector.replicate 32 0x00#8
  iv := Vector.replicate 32 0x00#8
  klen := 0
  ivlen := 0
  p := []
  q := []
  ctr := 0
  rdy := false
  dir := .encrypt
  err := false
  port := .ready
  pins := []
  served := 0
  delivered := []

end Sys2Proof.Machine
end

