-- ==== Sys2Proof/Machine/Flags.lean ====
section
/-! DEFINITION. The flags and the status word (10_state.md R32 to R35, R44). There are no arithmetic condition codes (R44):
the only flags are `RDY`, `DIR` and `ERR`. -/

namespace Sys2Proof.Machine

/-- `STATW = zext_32({CTR, IVLEN, KLEN, 0b0, ERR, DIR, RDY})` (R35). -/
def State.statw (s : State) : Word :=
  0#5 ++ s.ctr ++ s.ivlen ++ s.klen ++ 0#1 ++ BitVec.ofBool s.err ++ s.dir.bit ++ BitVec.ofBool s.rdy

/-- The table a generator step writes: `CTR[10]` selects it, 0 for `P`, 1 for `Q` (R31, R130, R190). -/
def activeTable (ctr : BitVec 11) : TableName := if ctr.getLsbD 10 then .q else .p

/-- The alternate table: the one a generator step only reads (R190). -/
def TableName.other : TableName → TableName
  | .p => .q
  | .q => .p

end Sys2Proof.Machine
end

