-- ==== Sys2Proof/Machine/Arith.lean ====
section
/-! DEFINITION. Word arithmetic and the functions f1, f2, g, h (40_word_arithmetic.md R120 to R132). All are total and
set no flag (R131). -/

namespace Sys2Proof.Machine

/-- `add32(a, b) = (a + b) mod 2^32` (R120). -/
def add32 (a b : Word) : Word := a + b

/-- `rotr(x, n)` (R121). The count is 0..31 by its type: another count has no meaning (U7). -/
def rotr (x : Word) (n : Fin 32) : Word := (x >>> n.val) ||| (x <<< (32 - n.val))

/-- `shr(x, n) = floor(x / 2^n)` (R122). The count is 0..31 by its type. -/
def shr (x : Word) (n : Fin 32) : Word := x >>> n.val

/-- `f1(x) = rotr(x, 7) xor rotr(x, 18) xor shr(x, 3)` (R124). -/
def f1 (x : Word) : Word := rotr x 7 ^^^ rotr x 18 ^^^ shr x 3

/-- `f2(x) = rotr(x, 17) xor rotr(x, 19) xor shr(x, 10)` (R125). -/
def f2 (x : Word) : Word := rotr x 17 ^^^ rotr x 19 ^^^ shr x 10

/-- `byte_k(w) = w[8k+7:8k]` (R129). -/
def byteOf (k : Fin 4) (w : Word) : Byte := w.extractLsb' (8 * k.val) 8

/-- `le32(b0, b1, b2, b3)`: the first byte is the least significant (R129). -/
def le32 (b0 b1 b2 b3 : Byte) : Word := b3 ++ b2 ++ b1 ++ b0

/-- `sub1024(j, k) = (j - k) mod 1024` (R128). -/
def sub1024 (j k : Index) : Index := j - k

/-- The index of `g` into the table: `(x xor y)[9:0]` (R126). -/
def gIndex (x y : Word) : Index := (x ^^^ y).extractLsb' 0 10

/-- `g(x, y, T)` (R126), for a table given by the operation that reads one entry. -/
def g {m : Type → Type} [Monad m] (x y : Word) (T : Index → m Word) : m Word := do
  let t ← T (gIndex x y)
  return add32 (rotr x 10 ^^^ rotr y 23) t

/-- The entry that byte `k` of `x` picks in quarter `k` of the table: `256 k + x[8k+7:8k]` (R70, R127). -/
def hIndex (k : Fin 4) (x : Word) : Index := BitVec.ofNat 2 k.val ++ byteOf k x

/-- `h(x, T)` (R127), for a table given by the operation that reads one entry. -/
def h {m : Type → Type} [Monad m] (x : Word) (T : Index → m Word) : m Word := do
  let t0 ← T (hIndex 0 x)
  let t1 ← T (hIndex 1 x)
  let t2 ← T (hIndex 2 x)
  let t3 ← T (hIndex 3 x)
  return add32 (add32 (add32 t0 t1) t2) t3

/-- `CTR + 1` modulo 2048 (R130, R191). -/
def nextCounter (ctr : BitVec 11) : BitVec 11 := ctr + 1

/-- `j = CTR[9:0]` (R130, R192). -/
def writeIndex (ctr : BitVec 11) : Index := ctr.extractLsb' 0 10

end Sys2Proof.Machine
end

