-- ==== Sys2Proof/Machine/Operands.lean ====
section
/-! DEFINITION. The operand forms: the byte count and data lanes of `XOR` (30_encoding.md R101, 44_xor_transform.md R210),
the word view of the key and IV buffers (10_state.md R25), and the fields of a response (R94). -/

namespace Sys2Proof.Machine

/-- The byte counts `XOR` allows: 1 to 4 (R97, R101). -/
def countLegal (n : BitVec 4) : Bool := decide (1 ≤ n.toNat ∧ n.toNat ≤ 4)

/-- `mask = 2^(8n) - 1` (R210). -/
def laneMask (n : BitVec 4) : Word := BitVec.ofNat 32 (2 ^ (8 * n.toNat) - 1)

/-- `out = (d xor KS) and mask` (R210). -/
def xorLanes (n : BitVec 4) (d ks : Word) : Word := (d ^^^ ks) &&& laneMask n

/-- `K[i]` and `V[i]`: word `i` of a buffer, little-endian (R25, R61). -/
def bufferWord (b : Buffer) (i : Fin 8) : Word :=
  le32 b[4 * i.val] b[4 * i.val + 1] b[4 * i.val + 2] b[4 * i.val + 3]

/-- The code of a status (R96). -/
def Status.code : Status → BitVec 4
  | .ok => 0x0#4
  | .errOp => 0x1#4
  | .errSeq => 0x2#4
  | .errArg => 0x3#4

/-- `rsp_word = {st, n, d}` (R94). -/
def Response.word (r : Response) : PortWord := r.st.code ++ r.n ++ r.d

end Sys2Proof.Machine
end

