-- ==== Sys2Proof/Machine/Ops.lean ====
section
/-! DEFINITION. The shared operations: table memory (00_scope.md R10, 20_memory.md R71), the generator step
(43_generator.md R195), answering a command and refusing one (60_exceptions.md R241), and the edges of the port
(30_encoding.md R91, 70_reset_and_hazards.md R270). -/

namespace Sys2Proof.Machine

/-! ### Table memory -/

/-- What an index that is not listed reads as: no value (R40, log 4). -/
def Memory.unlisted : Option Word := none

/-- `MemRead(T, j)` (R10): the word of entry `j`, or no value if nothing has written it. -/
def Memory.read : Table → Nat → Option Word
  | [], _ => Memory.unlisted
  | (k, v) :: t, j => if k = j then some v else Memory.read t j

/-- `MemWrite(T, j, w)` (R10): entry `j` becomes `w`, every other entry stays. -/
def Memory.write : Table → Nat → Word → Table
  | [], j, w => [(j, w)]
  | (k, v) :: t, j, w =>
    if j < k then (j, w) :: (k, v) :: t
    else if j = k then (j, w) :: t
    else (k, v) :: Memory.write t j w

/-- The indices of a table are strictly rising from at least `lo` and below 1024 (R60). -/
def Memory.wfFrom : Nat → Table → Bool
  | _, [] => true
  | lo, (k, _) :: t => decide (lo ≤ k ∧ k < 1024) && Memory.wfFrom (k + 1) t

/-- The canonical form of a table. -/
def Memory.wf (t : Table) : Bool := Memory.wfFrom 0 t

/-- Every entry has been written (R41(c)). -/
abbrev Memory.Complete (t : Table) : Prop := ∀ j : Index, (Memory.read t j.toNat).isSome = true

/-- The table all of whose entries have been written, with these words. Irreducible only so that no proof unfolds
1024 entries by accident. -/
@[irreducible] def Memory.ofWords (w : Words) : Table := List.ofFn fun j : Fin 1024 => (j.val, w[j.val])

/-- A table of the state by its name. -/
def State.table (s : State) : TableName → Table
  | .p => s.p
  | .q => s.q

/-- Reads one entry of a table of the state; an entry that holds no value is a fault (R40, U1). -/
def State.readEntry (s : State) (which : TableName) (j : Index) : Except Fault Word :=
  match Memory.read (s.table which) j.toNat with
  | some w => .ok w
  | none => .error (.unwrittenEntry which j.toNat)

/-- Writes one entry of a table of the state; the other table stays (R193, R194). -/
def State.writeEntry (s : State) (which : TableName) (j : Index) (w : Word) : State :=
  match which with
  | .p => { s with p := Memory.write s.p j.toNat w }
  | .q => { s with q := Memory.write s.q j.toNat w }

/-! ### The generator step -/

/-- Lines 3 to 10 of GENSTEP (R195) for a step with write index `j`, active table `A` and alternate table `B`, each
given by the operation that reads one entry: the new value of `A[j]` and the keystream word. Line 9 reads `A` after
the write of line 8. -/
def generate {m : Type → Type} [Monad m] (A B : Index → m Word) (j : Index) : m (Word × Word) := do
  let jm3 := sub1024 j 3
  let jm10 := sub1024 j 10
  let jm12 := sub1024 j 12
  let jm1023 := sub1024 j 1023
  let x ← A jm3
  let y ← A jm1023
  let temp ← g x y B
  let old ← A j
  let a10 ← A jm10
  let new := add32 (add32 old a10) temp
  let A' : Index → m Word := fun i => if i = j then pure new else A i
  let z ← A' jm12
  let hz ← h z B
  return (new, hz ^^^ new)

/-- GENSTEP (R195) on the state: the keystream word and the state with `A[j]` and `CTR` written. -/
def State.genStep (s : State) : Except Fault (Word × State) := do
  let A := activeTable s.ctr
  let j := writeIndex s.ctr
  let (new, ks) ← generate (s.readEntry A) (s.readEntry A.other) j
  return (ks, { s.writeEntry A j new with ctr := nextCounter s.ctr })

/-- What the generator works on inside `INIT`, once both tables are written (R173 to R175). -/
structure Gen where
  p : Words
  q : Words
  ctr : BitVec 11
  deriving DecidableEq, Repr

/-- Reads one entry of a table inside `INIT`. -/
def Gen.readEntry (s : Gen) (which : TableName) (j : Index) : Word :=
  match which with
  | .p => s.p[j.toNat]
  | .q => s.q[j.toNat]

/-- Writes one entry of a table inside `INIT`. -/
def Gen.writeEntry (s : Gen) (which : TableName) (j : Index) (w : Word) : Gen :=
  match which with
  | .p => { s with p := s.p.set j.toNat w }
  | .q => { s with q := s.q.set j.toNat w }

/-- GENSTEP (R195) inside `INIT`: the same lines on tables whose entries are all written. -/
def Gen.genStep (s : Gen) : Word × Gen :=
  let A := activeTable s.ctr
  let j := writeIndex s.ctr
  let r := generate (m := Id) (s.readEntry A) (s.readEntry A.other) j
  (r.2, { s.writeEntry A j r.1 with ctr := nextCounter s.ctr })

/-! ### Answering a command, and the refusal that stands in place of a trap -/

/-- The accepted command is answered with `rsp`, which will be valid `wait + 1` edges after acceptance (R92, R281).
`cmd_ready` is 0 from now until the response is delivered (R92). -/
def State.respond (s : State) (wait : Nat) (rsp : Response) : State :=
  { s with port := .inFlight wait rsp, served := s.served + 1 }

/-- `respond {OK, 0, d}` of a command other than `INIT` and `XOR`. -/
def State.answer (s : State) (d : Word) : State := s.respond (Config.cmdWait s.served) ⟨.ok, 0#4, d⟩

/-- `refuse E` (R241): `ERR` is set, the response is `{E, 0, 0}`, no other state of R21 changes. There is no trap
entry and no return: the engine goes on with the next command (R247). -/
def State.refuse (s : State) (e : Status) : State :=
  { s with err := true }.respond (Config.cmdWait s.served) ⟨e, 0#4, 0#32⟩

/-! ### The port -/

/-- The response is delivered: the host has it, and the port is ready for the next command (R91, R92). -/
def State.deliver (s : State) : State :=
  match s.port with
  | .ready => s
  | .inFlight _ rsp => { s with port := .ready, delivered := s.delivered ++ [rsp] }

/-- A rising edge with `rst = 1` (R270, R272): the reset state, whatever was in progress; a response that was not
delivered before this edge is lost, also one the host is ready for at it (DESIGN CHOICE, log 14). What belongs to the
host stays (log 6). -/
def State.resetEdge (s : State) : State :=
  { State.reset with pins := s.pins, served := s.served, delivered := s.delivered }

/-- The host drives nothing: all inputs 0 (log 1). -/
def Pins.quiet : Pins := ⟨false, false, 0#40, false⟩

/-- What the host drives on the next edge; nothing when the list has run out (log 1). -/
def State.edgePins (s : State) : Pins := s.pins.headD Pins.quiet

/-- The state with the next edge's inputs taken off the list. -/
def State.dropEdge (s : State) : State := { s with pins := s.pins.tail }

/-- `cmd_ready` (R90, R92, R270) at an edge with this `rst`. -/
def State.cmdReady (s : State) (rst : Bool) : Bool := !rst && decide (s.port = .ready)

/-- `rsp_valid` (R90 to R92, R281). -/
def State.rspValid (s : State) : Bool :=
  match s.port with
  | .inFlight 0 _ => true
  | .inFlight (_ + 1) _ => false
  | .ready => false

/-- The response of the command in flight, valid yet or not. -/
def State.pending (s : State) : Option Response :=
  match s.port with
  | .ready => none
  | .inFlight _ rsp => some rsp

/-- `rsp_word` (R90, R91), given while `rsp_valid` is 1 (log 8). -/
def State.rspWord (s : State) : Option PortWord :=
  if s.rspValid then s.pending.map Response.word else none

end Sys2Proof.Machine
end

