-- ==== Sys2Proof/Machine/Control.lean ====
section
/-! DEFINITION. The meanings of `STAT` (45_status.md R230) and of the reserved rows (60_exceptions.md R242). -/

namespace Sys2Proof.Machine

/-- `STAT` (R230): the status word as it stands before the command; legal in every lifecycle state. -/
def execStat (s : State) : Host.Outcome State Fault Refusal := .next (s.answer s.statw)

/-- Row `RESERVED_0` (R98, R242): refused with `ERR_OP`, whatever the other bits hold. -/
def execReserved0 (s : State) : Host.Outcome State Fault Refusal := .next (s.refuse .errOp)

/-- Row `RESERVED_7` (R98, R242): refused with `ERR_OP`, whatever the other bits hold. -/
def execReserved7 (s : State) : Host.Outcome State Fault Refusal := .next (s.refuse .errOp)

/-- Row `RESERVED_8_F` (R98, R242): refused with `ERR_OP`, whatever the other bits hold. -/
def execReserved8F (s : State) : Host.Outcome State Fault Refusal := .next (s.refuse .errOp)

end Sys2Proof.Machine
end

