-- ==== Sys2Proof/Machine/Expand.lean ====
section
/-! DEFINITION. `INIT`: the key/IV expander and the warm-up (42_init_expander_warmup.md R170 to R177). -/

namespace Sys2Proof.Machine

/-- Seeding (R171): `W[i] = K[i]`, `W[8 + i] = V[i]` for i in 0..7. -/
def seed (key iv : Buffer) : Vector Word 16 :=
  Vector.ofFn (fun i : Fin 8 => bufferWord key i) ++ Vector.ofFn (fun i : Fin 8 => bufferWord iv i)

/-- `expstep(W, i)` (R172) for `i = 16 + k`, from `W[0..i)`. -/
def expStep {k : Nat} (W : Vector Word (16 + k)) : Word :=
  add32 (add32 (add32 (add32 W[k] (f1 W[k + 1])) W[k + 9]) (f2 W[k + 14])) (BitVec.ofNat 32 (16 + k))

/-- `W[0..16 + k)`: the seed and the first `k` words of the recurrence, in increasing order (R172). -/
def expand (seedWords : Vector Word 16) : (k : Nat) → Vector Word (16 + k)
  | 0 => seedWords
  | k + 1 => let W := expand seedWords k; W.push (expStep W)

/-- The expansion buffer `W` of a key and an IV: 2560 words (R29, R69). -/
def expansion (key iv : Buffer) : Vector Word 2560 := expand (seed key iv) Config.expansionSteps

/-- Slicing (R173) and the clearing of the counter (R174): `P = W[512..1536)`, `Q = W[1536..2560)`, `CTR = 0`. -/
def slice (W : Vector Word 2560) : Gen where
  p := Vector.ofFn fun j : Fin 1024 => W[512 + j.val]
  q := Vector.ofFn fun j : Fin 1024 => W[1536 + j.val]
  ctr := 0

/-- `k` generator steps, their words discarded (R175). -/
def warmUp : Nat → Gen → Gen
  | 0, s => s
  | k + 1, s => warmUp k s.genStep.2

/-- Steps 1 to 5 of `INIT` (R170): the tables and the counter of the instance of a key and an IV. Irreducible only so
that no proof unfolds 6640 steps by accident. -/
@[irreducible] def instanceOf (key iv : Buffer) : Gen := warmUp Config.warmUpSteps (slice (expansion key iv))

/-- Steps 1 to 6 of `INIT` (R170): `P`, `Q`, `CTR` of the instance, `DIR <- m`, `RDY <- 1` (R176). -/
def State.create (s : State) (m : Mode) : State :=
  let inst := instanceOf s.key s.iv
  { s with p := Memory.ofWords inst.p, q := Memory.ofWords inst.q, ctr := inst.ctr, dir := m, rdy := true }

/-- `INIT m` (R170). `W` is a value of this step only (R177, log 5). -/
def execInit (m : Mode) (s : State) : Host.Outcome State Fault Refusal :=
  if s.rdy then .next (s.refuse .errSeq)
  else .next ((s.create m).respond (Config.initWait s.served s.key s.iv) ⟨.ok, 0#4, 0#32⟩)

end Sys2Proof.Machine
end

