-- ==== Sys2Proof/Machine/Load.lean ====
section
/-! DEFINITION. The meanings of `NEW`, `KEYB` and `IVB` (41_key_iv_load.md R150 to R152). -/

namespace Sys2Proof.Machine

/-- `NEW` (R150): the buffers are zeroed, `KLEN`, `IVLEN`, `CTR`, `RDY`, `DIR` cleared; `P` and `Q` become unspecified,
that is no entry holds a value (R40, log 4); `ERR` stays. -/
def State.clear (s : State) : State :=
  { s with
    key := Vector.replicate 32 0x00#8, iv := Vector.replicate 32 0x00#8
    klen := 0, ivlen := 0, ctr := 0, rdy := false, dir := .encrypt
    p := [], q := [] }

/-- `KEY[KLEN] <- b; KLEN <- KLEN + 1` if `KLEN < 32`, else nothing (R151, R154). -/
def State.pushKey (s : State) (b : Byte) : State :=
  if hlt : s.klen.toNat < 32 then { s with key := s.key.set s.klen.toNat b, klen := s.klen + 1 } else s

/-- `IV[IVLEN] <- b; IVLEN <- IVLEN + 1` if `IVLEN < 32`, else nothing (R152). -/
def State.pushIv (s : State) (b : Byte) : State :=
  if hlt : s.ivlen.toNat < 32 then { s with iv := s.iv.set s.ivlen.toNat b, ivlen := s.ivlen + 1 } else s

/-- `NEW` (R150). Legal in every lifecycle state. -/
def execNew (s : State) : Host.Outcome State Fault Refusal := .next (s.clear.answer 0#32)

/-- `KEYB b` (R151). -/
def execKeyb (b : Byte) (s : State) : Host.Outcome State Fault Refusal :=
  if s.rdy then .next (s.refuse .errSeq) else .next ((s.pushKey b).answer 0#32)

/-- `IVB b` (R152). -/
def execIvb (b : Byte) (s : State) : Host.Outcome State Fault Refusal :=
  if s.rdy then .next (s.refuse .errSeq) else .next ((s.pushIv b).answer 0#32)

end Sys2Proof.Machine
end

