-- ==== Sys2Proof/Machine/Transform.lean ====
section
/-! DEFINITION. The meaning of `XOR` (44_xor_transform.md R210 to R214). -/

namespace Sys2Proof.Machine

/-- `XOR n, d` (R210): the checks of R100 in the order of R245, then one generator step (R214), then the response
`{OK, n, (d xor KS) and mask}`. `KS` is dropped (R26, R213). -/
def execXor (n : BitVec 4) (d : Word) (s : State) : Host.Outcome State Fault Refusal :=
  if countLegal n then
    if s.rdy then
      match s.genStep with
      | .ok (ks, t) => .next (t.respond (Config.xorWait s.served d s.p s.q) ⟨.ok, n, xorLanes n d ks⟩)
      | .error f => .fault f
    else .next (s.refuse .errSeq)
  else .next (s.refuse .errArg)

end Sys2Proof.Machine
end

