-- ==== Sys2Proof/Machine/Dispatch.lean ====
section
/-! DEFINITION. The meaning of each instruction, one arm per row of spec/opcode_table.json. -/

namespace Sys2Proof.Machine

def exec (i : Instr) (s : State) : Host.Outcome State Fault Refusal :=
  match i with
  | .new => Sys2Proof.Machine.execNew s
  | .keyb b => Sys2Proof.Machine.execKeyb b s
  | .ivb b => Sys2Proof.Machine.execIvb b s
  | .init m => Sys2Proof.Machine.execInit m s
  | .xor n d => Sys2Proof.Machine.execXor n d s
  | .stat => Sys2Proof.Machine.execStat s
  | .reserved0 _ => Sys2Proof.Machine.execReserved0 s
  | .reserved7 _ => Sys2Proof.Machine.execReserved7 s
  | .reserved8F _ => Sys2Proof.Machine.execReserved8F s

end Sys2Proof.Machine
end

