-- ==== Sys2Proof/Machine/Command.lean ====
section
/-! DEFINITION. The two levels at which commands run: one accepted command word (00_scope.md R7, 30_encoding.md R100), a
sequence of them (R92), and one rising edge of the clock (R90, R91, R270). -/

namespace Sys2Proof.Machine

/-- One accepted command word (R7, R100): a word that is no instruction is refused with `ERR_ARG` (R97, R243; log 10). -/
def perform (cw : PortWord) (s : State) : Host.Outcome State Fault Refusal :=
  match decode cw with
  | .ok i => exec i s
  | .error _ => .next (s.refuse .errArg)

/-- One command word performed and its response taken by the host (R92). -/
def serve (cw : PortWord) (s : State) : Host.Outcome State Fault Refusal :=
  match perform cw s with
  | .next t => .next t.deliver
  | .fault f => .fault f
  | .refused r => .refused r

/-- A sequence of command words, each performed and answered before the next (R92). The responses are the ones added to
`delivered`. -/
def serveAll : List PortWord → State → Host.Outcome State Fault Refusal
  | [], s => .next s
  | cw :: rest, s =>
    match serve cw s with
    | .next t => serveAll rest t
    | .fault f => .fault f
    | .refused r => .refused r

/-- The command word accepted at an edge with these inputs, if one is (R91): `cmd_valid` and `cmd_ready` are both 1
(log 12). -/
def State.accepts (s : State) (e : Pins) : Option PortWord :=
  if e.cmdValid && s.cmdReady e.rst then some e.cmdWord else none

/-- One rising edge of `clk` with the inputs `e` (R91, R92, R270). DESIGN CHOICE (log 14): where `rst`, `rsp_valid` and
`rsp_ready` are all 1 at one edge, reset wins and the response is abandoned as in R272; R91 alone would deliver it. -/
def clockEdge (e : Pins) (s : State) : Host.Outcome State Fault Refusal :=
  if e.rst then .next s.resetEdge
  else
    match s.port with
    | .ready => if e.cmdValid then perform e.cmdWord s else .next s
    | .inFlight 0 _ => if e.rspReady then .next s.deliver else .next s
    | .inFlight (wait + 1) rsp => .next { s with port := .inFlight wait rsp }

/-- The command words accepted on the next `k` edges, in order. -/
def acceptedWords : Nat → State → List PortWord
  | 0, _ => []
  | k + 1, s =>
    (s.accepts s.edgePins).toList ++
      match clockEdge s.edgePins s.dropEdge with
      | .next t => acceptedWords k t
      | .fault _ => []
      | .refused _ => []

/-- The inputs of an edge at which the host presents a command word and does nothing else. -/
def Pins.command (cw : PortWord) : Pins := ⟨false, true, cw, false⟩

/-- The state in which the next edge accepts this command word: the port ready and the word on the pins (R91, log 1). -/
def State.withCommand (s : State) (cw : PortWord) : State :=
  { s with port := .ready, pins := Pins.command cw :: s.pins }

end Sys2Proof.Machine
end

