-- ==== Sys2Proof/Machine/Step.lean ====
section
/-! DEFINITION. One step: one rising edge of `clk` with the inputs the host drives on it (30_encoding.md R90, R91). -/

namespace Sys2Proof.Machine

/-- One rising edge of `clk`. -/
def step (s : State) : Host.Outcome State Fault Refusal := clockEdge s.edgePins s.dropEdge

/-- The state in which the very next step accepts the command word `w` (log 1, log 9). -/
def State.withFetchWord (s : State) (nbits w : Nat) : State :=
  s.withCommand (BitVec.ofNat 40 (w % 2 ^ nbits))

end Sys2Proof.Machine
end

