-- ==== Sys2Proof/Machine/Asm.lean ====
section
/-! DEFINITION. The text form of commands and responses, and the pseudo-instructions that are the source's two operations
(30_encoding.md R110 to R113, 44_xor_transform.md R215 to R217). -/

namespace Sys2Proof.Machine

/-! ### Text (R110) -/

/-- One hexadecimal digit, in capitals. -/
def hexDigit (v : Nat) : Char :=
  if v % 16 < 10 then Char.ofNat (48 + v % 16) else Char.ofNat (55 + v % 16)

/-- The low `k` hexadecimal digits of a number, most significant first. -/
def hexDigits : Nat → Nat → List Char
  | 0, _ => []
  | k + 1, v => hexDigits k (v / 16) ++ [hexDigit v]

/-- `0x` and `k` hexadecimal digits (log 11). -/
def hexText (k v : Nat) : String := "0x" ++ String.ofList (hexDigits k v)

/-- The text of a mode operand (R110). -/
def Mode.text : Mode → String
  | .encrypt => "ENC"
  | .decrypt => "DEC"

/-- The text form of a command (R110); a reserved word is written `.word`. -/
def instrText : Instr → String
  | .new => "NEW"
  | .keyb b => "KEYB " ++ hexText 2 b.toNat
  | .ivb b => "IVB " ++ hexText 2 b.toNat
  | .init m => "INIT " ++ Mode.text m
  | .xor n d => "XOR " ++ String.ofList (Nat.toDigits 10 n.toNat) ++ ", " ++ hexText 8 d.toNat
  | .stat => "STAT"
  | .reserved0 x => ".word " ++ hexText 10 (encode (.reserved0 x)).toNat
  | .reserved7 x => ".word " ++ hexText 10 (encode (.reserved7 x)).toNat
  | .reserved8F x => ".word " ++ hexText 10 (encode (.reserved8F x)).toNat

/-- The name of a status (R96). -/
def Status.text : Status → String
  | .ok => "OK"
  | .errOp => "ERR_OP"
  | .errSeq => "ERR_SEQ"
  | .errArg => "ERR_ARG"

/-- A response is written `st:n:d` (R110). -/
def Response.text (r : Response) : String :=
  r.st.text ++ ":" ++ String.ofList (Nat.toDigits 10 r.n.toNat) ++ ":" ++ hexText 8 r.d.toNat

/-! ### Pseudo-instructions (R111 to R113) -/

/-- `KEY bytes`: one `KEYB` per byte, the first byte first (R113). -/
def keyWords (bytes : List Byte) : List PortWord := bytes.map fun b => encode (.keyb b)

/-- `IV bytes`: one `IVB` per byte, the first byte first (R113). -/
def ivWords (bytes : List Byte) : List PortWord := bytes.map fun b => encode (.ivb b)

/-- `INITIALIZE key, iv, mode`: the source's `initialize` (R111). -/
def initializeWords (key iv : List Byte) (m : Mode) : List PortWord :=
  encode .new :: (keyWords key ++ ivWords iv ++ [encode (.init m)])

/-- `TRANSFORM buf`: the source's `transform` (R112, R215). Four bytes a command, the last with what is left; an
empty buffer is no command (R216). -/
def transformWords : List Byte → List PortWord
  | b0 :: b1 :: b2 :: b3 :: rest => encode (.xor 4 (le32 b0 b1 b2 b3)) :: transformWords rest
  | [b0, b1, b2] => [encode (.xor 3 (le32 b0 b1 b2 0))]
  | [b0, b1] => [encode (.xor 2 (le32 b0 b1 0 0))]
  | [b0] => [encode (.xor 1 (le32 b0 0 0 0))]
  | [] => []

/-- The output bytes a response carries: lanes `0` to `n - 1` of its data (R101, R112), with the response's own `n`. DESIGN
CHOICE (log 15): the response to a refused `XOR` has `n` = 0 and so carries no byte, where R112 counts by the command's `n_m`. -/
def Response.bytes (r : Response) : List Byte := ((List.finRange 4).take r.n.toNat).map fun k => byteOf k r.d

/-- The output buffer of a sequence of responses (R112). A refused command adds nothing to it (log 15). -/
def outputBytes (rs : List Response) : List Byte := rs.flatMap Response.bytes

/-- What a line of a listing makes the host do: present a command word, or hold `rst` at 1 on one edge (R113). -/
inductive HostAct where
  | command (cw : PortWord)
  | resetPin
  deriving DecidableEq, Repr

/-- The lines of a listing (R110 to R113). -/
inductive Line where
  /-- A command in its text form. -/
  | command (i : Instr)
  /-- `.word w`. -/
  | word (cw : PortWord)
  /-- `INITIALIZE key, iv, mode`. -/
  | initInstance (key iv : List Byte) (m : Mode)
  /-- `TRANSFORM buf`. -/
  | transform (buf : List Byte)
  /-- `KEY hexstring`. -/
  | key (bytes : List Byte)
  /-- `IV hexstring`. -/
  | iv (bytes : List Byte)
  /-- `RESET`: not a command, one edge with `rst = 1`. -/
  | reset
  deriving DecidableEq, Repr

/-- What a line expands to (R110 to R113). -/
def Line.acts : Line → List HostAct
  | .command i => [.command (encode i)]
  | .word cw => [.command cw]
  | .initInstance k v m => (initializeWords k v m).map .command
  | .transform buf => (transformWords buf).map .command
  | .key bytes => (keyWords bytes).map .command
  | .iv bytes => (ivWords bytes).map .command
  | .reset => [.resetPin]

/-- One act of the host, each command answered before the next act. -/
def HostAct.run : HostAct → State → Host.Outcome State Fault Refusal
  | .command cw, s => serve cw s
  | .resetPin, s => .next s.resetEdge

/-- A listing's acts, one after the other. -/
def runActs : List HostAct → State → Host.Outcome State Fault Refusal
  | [], s => .next s
  | a :: rest, s =>
    match a.run s with
    | .next t => runActs rest t
    | .fault f => .fault f
    | .refused r => .refused r

/-- A listing. -/
def runLines (lines : List Line) (s : State) : Host.Outcome State Fault Refusal := runActs (lines.flatMap Line.acts) s

end Sys2Proof.Machine
end

