-- ==== Sys2Proof/Safety.lean ====
section
/-! DEFINITION. What claims are stated in: the invariant of 10_state.md R41, safe runs, agreement of two engines, and a second
reading of the generator step of 43_generator.md in plain arithmetic on tables given as functions of a number. -/

namespace Sys2Proof.Machine

/-! ### The invariant and safe runs -/

/-- R41 (a) to (d), and the canonical form of the two tables. R41 (e) and (f) are about steps, not states. -/
structure State.Inv (s : State) : Prop where
  /-- R41(a). -/
  klen_le : s.klen.toNat ≤ 32
  /-- R41(a). -/
  ivlen_le : s.ivlen.toNat ≤ 32
  /-- R41(b). -/
  key_zero : ∀ k : Fin 32, s.klen.toNat ≤ k.val → s.key[k.val] = 0x00#8
  /-- R41(b). -/
  iv_zero : ∀ k : Fin 32, s.ivlen.toNat ≤ k.val → s.iv[k.val] = 0x00#8
  /-- R41(c). -/
  live_complete : s.rdy = true → Memory.Complete s.p ∧ Memory.Complete s.q
  /-- R41(d). -/
  empty_clear : s.rdy = false → s.ctr = 0 ∧ s.dir = .encrypt
  /-- The canonical form of `P`. -/
  p_wf : Memory.wf s.p = true
  /-- The canonical form of `Q`. -/
  q_wf : Memory.wf s.q = true

/-- A run of any length from this state stops at no fault and at no refusal of the model. -/
def State.Safe (s : State) : Prop := ∀ k : Nat, ∃ t, core.run k s = Host.Outcome.next t

/-! ### Agreement -/

/-- Two states agree on the ten fields of R21: the engine's architectural state. -/
structure State.SameEngine (s t : State) : Prop where
  key : t.key = s.key
  iv : t.iv = s.iv
  klen : t.klen = s.klen
  ivlen : t.ivlen = s.ivlen
  p : t.p = s.p
  q : t.q = s.q
  ctr : t.ctr = s.ctr
  rdy : t.rdy = s.rdy
  dir : t.dir = s.dir
  err : t.err = s.err

/-- `t` is `s` with a command answered by `rsp`: the response is in flight, and what belongs to the host is unchanged. -/
structure State.Answered (s t : State) (rsp : Response) : Prop where
  pending : t.pending = some rsp
  pins : t.pins = s.pins
  delivered : t.delivered = s.delivered

/-! ### The generator step a second time (R193, R194, R195) -/

/-- `(j - k) mod 1024` (R192). -/
def back (j k : Nat) : Nat := (j + 1024 - k) % 1024

/-- `temp` of R193: `g(A[jm3], A[jm1023], B)`. -/
def stepTemp (A B : Nat → Word) (j : Nat) : Word :=
  (rotr (A (back j 3)) 10 ^^^ rotr (A (back j 1023)) 23) + B ((A (back j 3) ^^^ A (back j 1023)).toNat % 1024)

/-- The updated entry of R193: `A[j] + A[jm10] + temp`. -/
def stepNew (A B : Nat → Word) (j : Nat) : Word := A j + A (back j 10) + stepTemp A B j

/-- The sum of `h` in R193, of `z = A[jm12]`. -/
def stepH (B : Nat → Word) (z : Word) : Word :=
  B (z.toNat % 256) + B (256 + z.toNat / 2 ^ 8 % 256) + B (512 + z.toNat / 2 ^ 16 % 256) + B (768 + z.toNat / 2 ^ 24)

/-- The word a step produces (R193). -/
def stepWord (A B : Nat → Word) (j : Nat) : Word := stepH B (A (back j 12)) ^^^ stepNew A B j

/-- A table that holds these words. -/
def HoldsWords (t : Table) (T : Nat → Word) : Prop := ∀ k, k < 1024 → Memory.read t k = some (T k)

/-- The generator on its own (R190): two tables and the counter. -/
structure Stream where
  tableP : Nat → Word
  tableQ : Nat → Word
  count : Nat

/-- The word of the next step: P-active below 1024 (R193), Q-active from 1024 on (R194). -/
def Stream.word (g : Stream) : Word :=
  if g.count < 1024 then stepWord g.tableP g.tableQ g.count else stepWord g.tableQ g.tableP (g.count - 1024)

/-- The generator after one step: one entry written (R193, R194), the counter advanced (R191). -/
def Stream.next (g : Stream) : Stream :=
  if g.count < 1024 then
    ⟨fun k => if k = g.count then stepNew g.tableP g.tableQ g.count else g.tableP k, g.tableQ, (g.count + 1) % 2048⟩
  else
    ⟨g.tableP, fun k => if k = g.count - 1024 then stepNew g.tableQ g.tableP (g.count - 1024) else g.tableQ k,
      (g.count + 1) % 2048⟩

/-- The words of the next steps, in order. -/
def Stream.words (g : Stream) : Nat → List Word
  | 0 => []
  | k + 1 => g.word :: g.next.words k

/-- The generator after a number of steps. -/
def Stream.advance (g : Stream) : Nat → Stream
  | 0 => g
  | k + 1 => g.next.advance k

/-- The tables and the counter of a state are those of a generator. -/
structure State.Holds (s : State) (g : Stream) : Prop where
  p : HoldsWords s.p g.tableP
  q : HoldsWords s.q g.tableQ
  ctr : s.ctr.toNat = g.count

/-- The four bytes of a keystream word, the first to be used first (R211). -/
def wordBytes (w : Word) : List Byte := (List.finRange 4).map fun k => byteOf k w

/-- One generator step at counter `c` takes the tables `P`, `Q` to `P'`, `Q'` (R193, R194). -/
def StepsTo (c : Nat) (P Q P' Q' : Nat → Word) : Prop :=
  if c < 1024 then P' = (fun k => if k = c then stepNew P Q c else P k) ∧ Q' = Q
  else P' = P ∧ Q' = fun k => if k = c - 1024 then stepNew Q P (c - 1024) else Q k

/-- `W` is the expansion buffer of a key and an IV (R171, R172). -/
structure IsExpansion (key iv : Buffer) (W : Nat → Word) : Prop where
  keyWords : ∀ i : Fin 8, W i.val = le32 key[4 * i.val] key[4 * i.val + 1] key[4 * i.val + 2] key[4 * i.val + 3]
  ivWords : ∀ i : Fin 8, W (8 + i.val) = le32 iv[4 * i.val] iv[4 * i.val + 1] iv[4 * i.val + 2] iv[4 * i.val + 3]
  recurrence : ∀ i, 16 ≤ i → i < 2560 →
    W i = W (i - 16) + f1 (W (i - 15)) + W (i - 7) + f2 (W (i - 2)) + BitVec.ofNat 32 i

/-- `P`, `Q` are the tables of the instance of a key and an IV: the slices of `W` (R173) after 4096 generator steps
from counter 0 (R174, R175). -/
def IsInstance (key iv : Buffer) (P Q : Nat → Word) : Prop :=
  ∃ (W : Nat → Word) (Ps Qs : Nat → Nat → Word),
    IsExpansion key iv W ∧
    (∀ j, j < 1024 → Ps 0 j = W (512 + j) ∧ Qs 0 j = W (1536 + j)) ∧
    (∀ c, c < 4096 → StepsTo (c % 2048) (Ps c) (Qs c) (Ps (c + 1)) (Qs (c + 1))) ∧
    P = Ps 4096 ∧ Q = Qs 4096

/-- The buffer of up to 32 bytes, padded with zero bytes on the right and cut at 32 (R22, R153, R154). -/
def padded (bytes : List Byte) : Buffer := Vector.ofFn fun k : Fin 32 => bytes.getD k.val 0x00#8

end Sys2Proof.Machine
end

