-- ==== Sys2Proof/Certificates/Slice0/Obligations.lean ====
section
/-! DEFINITION. The statements about the engine. Each docstring names the rule of spec/ it formalises. -/

open Sys2Proof Sys2Proof.Machine

/-! ### Encoding and decoding (30_encoding.md) -/

/-- The words of the table of R110 decode to the commands they stand for; `.word` forms of the reserved rows do too. -/
def Obligations.DocumentedWordsDecode : Prop :=
  decode 0x1000000000#40 = .ok .new ∧ decode 0x2000000055#40 = .ok (.keyb 0x55#8) ∧
  decode 0x30000000A0#40 = .ok (.ivb 0xA0#8) ∧ decode 0x4000000000#40 = .ok (.init .encrypt) ∧
  decode 0x4000000001#40 = .ok (.init .decrypt) ∧ decode 0x546C6C6548#40 = .ok (.xor 4#4 0x6C6C6548#32) ∧
  decode 0x6000000000#40 = .ok .stat ∧ decode 0x0000000000#40 = .ok (.reserved0 0#36) ∧
  decode 0x7000000001#40 = .ok (.reserved7 1#36) ∧ decode 0xF300001234#40 = .ok (.reserved8F 0x7300001234#39)

/-- Decoding the word of an instruction gives the instruction back, every operand at every value its field admits
(R93, R95, R101 to R104). -/
def Obligations.DecodeEncodeGivesInstructionBack : Prop :=
  ∀ i : Instr, decode (encode i) = .ok i

/-- Each command word that is an instruction is the word of that instruction: no bit of a word is ignored
(R93, R97, R99). -/
def Obligations.EncodeDecodeGivesWordBack : Prop :=
  ∀ (cw : PortWord) (i : Instr), decode cw = .ok i → encode i = cw

/-- R100: decoding is total and goes by the first line that applies, lines 1 to 3 refusing and line 4 performing. -/
def Obligations.CommandWordsFollowDecodeProcedure : Prop :=
  ∀ (cw : PortWord) (s : State),
    let op := cw.toNat / 2 ^ 36
    let n := cw.toNat / 2 ^ 32 % 16
    let d := cw.toNat % 2 ^ 32
    perform cw s =
      if op = 0 ∨ 7 ≤ op then .next (s.refuse .errOp)
      else if op = 1 ∧ (n ≠ 0 ∨ d ≠ 0) then .next (s.refuse .errArg)
      else if (op = 2 ∨ op = 3) ∧ (n ≠ 0 ∨ d / 2 ^ 8 ≠ 0) then .next (s.refuse .errArg)
      else if op = 4 ∧ (n ≠ 0 ∨ d / 2 ≠ 0) then .next (s.refuse .errArg)
      else if op = 5 ∧ (n = 0 ∨ 4 < n) then .next (s.refuse .errArg)
      else if op = 6 ∧ (n ≠ 0 ∨ d ≠ 0) then .next (s.refuse .errArg)
      else if (op = 2 ∨ op = 3 ∨ op = 4) ∧ s.rdy = true then .next (s.refuse .errSeq)
      else if op = 5 ∧ s.rdy = false then .next (s.refuse .errSeq)
      else if op = 1 then exec .new s
      else if op = 2 then exec (.keyb (BitVec.ofNat 8 d)) s
      else if op = 3 then exec (.ivb (BitVec.ofNat 8 d)) s
      else if op = 4 then exec (.init (if d = 0 then .encrypt else .decrypt)) s
      else if op = 5 then exec (.xor (BitVec.ofNat 4 n) (BitVec.ofNat 32 d)) s
      else exec .stat s

/-! ### Word arithmetic (40_word_arithmetic.md) -/

/-- R120, R122: addition modulo 2^32 and the logical right shift, as numbers. -/
def Obligations.AddAndShiftAsNumbers : Prop :=
  (∀ a b : Word, (add32 a b).toNat = (a.toNat + b.toNat) % 2 ^ 32) ∧
  (∀ (x : Word) (n : Fin 32), (shr x n).toNat = x.toNat / 2 ^ n.val)

/-- R121: bit i of `rotr(x, n)` is bit `(i + n) mod 32` of `x`, for every count 0 to 31. -/
def Obligations.RotateMovesEachBit : Prop :=
  ∀ (x : Word) (n : Fin 32) (i : Nat), i < 32 → (rotr x n).getLsbD i = x.getLsbD ((i + n.val) % 32)

/-- R124, R125 bit by bit: two rotated bits and a shifted one, which is 0 where the shift has run out of bits. -/
def Obligations.ExpansionFunctionsBitByBit : Prop :=
  ∀ (x : Word) (i : Nat), i < 32 →
    (f1 x).getLsbD i =
      ((x.getLsbD ((i + 7) % 32) ^^ x.getLsbD ((i + 18) % 32)) ^^ (decide (i + 3 < 32) && x.getLsbD (i + 3))) ∧
    (f2 x).getLsbD i =
      ((x.getLsbD ((i + 17) % 32) ^^ x.getLsbD ((i + 19) % 32)) ^^ (decide (i + 10 < 32) && x.getLsbD (i + 10)))

/-- R126, R127: `g` and `h` on a table of 1024 words, the entries they read given as numbers. -/
def Obligations.GeneratorFunctionsOnTables : Prop :=
  ∀ (T : Nat → Word) (x y : Word),
    g (m := Id) x y (fun j => T j.toNat) = (rotr x 10 ^^^ rotr y 23) + T ((x ^^^ y).toNat % 1024) ∧
    h (m := Id) x (fun j => T j.toNat) =
      T (x.toNat % 256) + T (256 + x.toNat / 2 ^ 8 % 256) + T (512 + x.toNat / 2 ^ 16 % 256) +
        T (768 + x.toNat / 2 ^ 24 % 256)

/-- R128: the subtraction of indices wraps into 0..1023, and `j - 1023` is `j + 1`. -/
def Obligations.IndexSubtractionWraps : Prop :=
  (∀ j k : Index, (sub1024 j k).toNat = if k.toNat ≤ j.toNat then j.toNat - k.toNat else j.toNat + 1024 - k.toNat) ∧
  (∀ j : Index, (sub1024 j 1023).toNat = (j.toNat + 1) % 1024)

/-- R199: the five indices of a step into the active table are pairwise distinct. -/
def Obligations.StepIndicesPairwiseDistinct : Prop :=
  ∀ j : Index, [j, sub1024 j 3, sub1024 j 10, sub1024 j 12, sub1024 j 1023].Nodup

/-- R129: a word is assembled from four bytes, the first byte least significant, and taken apart the same way. -/
def Obligations.BytesAndWordsAreInverse : Prop :=
  (∀ b0 b1 b2 b3 : Byte,
    (le32 b0 b1 b2 b3).toNat = b0.toNat + 2 ^ 8 * b1.toNat + 2 ^ 16 * b2.toNat + 2 ^ 24 * b3.toNat) ∧
  (∀ (w : Word) (k : Fin 4), (byteOf k w).toNat = w.toNat / 2 ^ (8 * k.val) % 256) ∧
  (∀ w : Word, le32 (byteOf 0 w) (byteOf 1 w) (byteOf 2 w) (byteOf 3 w) = w)

/-! ### Reset (70_reset_and_hazards.md, 10_state.md) -/

/-- R39: the values after reset that the spec gives, and the idle port; an entry of a table holds no value (R40; that this
is "absent" is the model's representation, log 4). -/
def Obligations.ResetStateValues : Prop :=
  (∀ k : Fin 32, State.reset.key[k.val] = 0x00#8 ∧ State.reset.iv[k.val] = 0x00#8) ∧
  State.reset.klen = 0 ∧ State.reset.ivlen = 0 ∧ State.reset.ctr = 0 ∧ State.reset.rdy = false ∧
  State.reset.dir = .encrypt ∧ State.reset.err = false ∧
  (∀ j : Nat, Memory.read State.reset.p j = none ∧ Memory.read State.reset.q j = none) ∧
  State.reset.port = .ready ∧ State.reset.cmdReady false = true ∧ State.reset.rspValid = false

/-- R270, R272: an edge with `rst = 1` gives the reset state whatever the engine was doing, accepts no command, and a
response not yet delivered is never delivered. Three clauses are the model's choice: that the entries of `P` and `Q` then hold
no value stands for "unspecified" (log 4), the record `delivered` stays over a reset (logs 2, 6), and a response the host is
ready for at this very edge is not delivered (log 14). -/
def Obligations.ResetEdgeAbandonsEverything : Prop :=
  ∀ s : State, s.edgePins.rst = true →
    s.accepts s.edgePins = none ∧
    ∃ t, step s = .next t ∧ State.reset.SameEngine t ∧ t.port = .ready ∧ t.cmdReady false = true ∧
      t.rspValid = false ∧ t.delivered = s.delivered

/-- R271, R20: with no command presented an idle engine does nothing. -/
def Obligations.IdleEngineDoesNothing : Prop :=
  ∀ s : State, s.edgePins.rst = false → s.edgePins.cmdValid = false → s.port = .ready →
    ∃ t, step s = .next t ∧ s.SameEngine t ∧ t.port = .ready ∧ t.delivered = s.delivered

/-! ### The port (30_encoding.md R90 to R92) -/

/-- A step runs the decoded instruction: at an edge where `cmd_valid` and `cmd_ready` are 1, the word on the pins is taken,
and the step is `exec` of its instruction on the state with that edge's inputs taken off (R91, R100; log 1). That the whole
effect lands at this edge is the model's (log 12). -/
def Obligations.StepRunsDecodedInstruction : Prop :=
  ∀ (s : State) (i : Instr), s.accepts s.edgePins = some s.edgePins.cmdWord → decode s.edgePins.cmdWord = .ok i →
    step s = exec i s.dropEdge

/-- An accepted word that is no instruction is refused with `ERR_ARG` (R97, R243), on the state with that edge's inputs taken
off (log 1). That the refusal's whole effect, `ERR` set, lands at this edge is the model's (log 12). -/
def Obligations.StepRefusesMalformedWord : Prop :=
  ∀ (s : State) (r : Reject), s.accepts s.edgePins = some s.edgePins.cmdWord → decode s.edgePins.cmdWord = .error r →
    step s = .next (s.dropEdge.refuse .errArg)

/-- R91: a command is accepted at an edge exactly when `cmd_valid` and `cmd_ready` are both 1, and the word accepted is
the one on the pins at that edge; `cmd_ready` is 0 while `rst` is 1 or a command is in flight (R92, R270). -/
def Obligations.AcceptanceNeedsValidAndReady : Prop :=
  ∀ (s : State) (e : Pins) (cw : PortWord),
    (s.accepts e = some cw ↔ e.cmdValid = true ∧ s.cmdReady e.rst = true ∧ e.cmdWord = cw) ∧
    (s.cmdReady e.rst = true ↔ e.rst = false ∧ s.pending = none)

/-- R91: a valid response is held, with its word, until the host takes it; then it is delivered and the port is ready
(R92). That the engine's ten fields stay meanwhile rests on log 12. -/
def Obligations.ResponseIsHeldUntilDelivered : Prop :=
  ∀ (s : State) (rsp : Response), s.edgePins.rst = false → s.rspValid = true → s.pending = some rsp →
    (s.edgePins.rspReady = false →
      ∃ t, step s = .next t ∧ s.SameEngine t ∧ t.rspValid = true ∧ t.rspWord = s.rspWord ∧
        t.delivered = s.delivered) ∧
    (s.edgePins.rspReady = true →
      ∃ t, step s = .next t ∧ s.SameEngine t ∧ t.rspValid = false ∧ t.cmdReady false = true ∧
        t.delivered = s.delivered ++ [rsp])

/-- R92: from acceptance to delivery nothing is accepted, whatever the pins other than `rst` do. That the engine's state
stays meanwhile is the model's clause (log 12: the whole effect lands at the acceptance edge); R92 only says that the effect
lies between the response before and the command's own. -/
def Obligations.BusyPortAcceptsNothing : Prop :=
  ∀ (s : State) (rsp : Response), s.edgePins.rst = false → s.pending = some rsp →
    s.accepts s.edgePins = none ∧
    ∃ t, step s = .next t ∧ s.SameEngine t ∧
      ((t.pending = some rsp ∧ t.delivered = s.delivered) ∨
        (s.rspValid = true ∧ s.edgePins.rspReady = true ∧ t.pending = none ∧ t.delivered = s.delivered ++ [rsp]))

/-- R283: a command in flight reaches `rsp_valid = 1` after finitely many edges, with its own response, as long as `rst`
stays 0; no value of the latency is used (log 3). That the engine's ten fields have stayed meanwhile is the model's clause
(log 12). -/
def Obligations.ResponseBecomesValid : Prop :=
  ∀ (s : State) (wait : Nat) (rsp : Response), s.port = .inFlight wait rsp →
    (∀ e ∈ s.pins.take wait, e.rst = false) →
    ∃ t, core.run wait s = Host.Outcome.next t ∧ t.rspValid = true ∧ t.rspWord = some rsp.word ∧ s.SameEngine t

/-- R92, R281: at the port the engine is a function from the accepted command words to the responses. Over any number of
edges with `rst = 0`, whatever the host drives and whatever the latencies are, the engine is where the accepted words
alone take it, and the responses delivered, with the one in flight, are theirs. That the ten fields already stand after the
command in flight is the model's clause (log 12). -/
def Obligations.PortIsFunctionOfAcceptedWords : Prop :=
  ∀ (s t : State) (k : Nat), s.port = .ready → (∀ e ∈ s.pins.take k, e.rst = false) →
    core.run k s = Host.Outcome.next t →
    ∃ u, serveAll (acceptedWords k s) s = .next u ∧ u.SameEngine t ∧
      t.delivered ++ t.pending.toList = u.delivered

/-! ### Loading (41_key_iv_load.md) -/

/-- R150: `NEW` is performed in every state; it empties the buffers and clears the instance, `ERR` stays; every entry of
the tables holds no value afterwards (R40; log 4). -/
def Obligations.NewDropsInstance : Prop :=
  ∀ s : State, ∃ t, exec .new s = .next t ∧ s.Answered t ⟨.ok, 0#4, 0#32⟩ ∧
    (∀ k : Fin 32, t.key[k.val] = 0x00#8 ∧ t.iv[k.val] = 0x00#8) ∧
    t.klen = 0 ∧ t.ivlen = 0 ∧ t.ctr = 0 ∧ t.rdy = false ∧ t.dir = .encrypt ∧ t.err = s.err ∧
    (∀ j : Nat, Memory.read t.p j = none ∧ Memory.read t.q j = none)

/-- R151: `KEYB b` while no instance is live stores `b` at `KEY[KLEN]` and counts it, or, the 33rd byte and later, is
performed and changes nothing; every other field of R21 stays. -/
def Obligations.KeybAppendsOneByte : Prop :=
  ∀ (b : Byte) (s : State), s.rdy = false → ∃ t, exec (.keyb b) s = .next t ∧ s.Answered t ⟨.ok, 0#4, 0#32⟩ ∧
    (∀ k : Fin 32, t.key[k.val] = if k.val = s.klen.toNat then b else s.key[k.val]) ∧
    t.klen.toNat = (if s.klen.toNat < 32 then s.klen.toNat + 1 else s.klen.toNat) ∧
    t.iv = s.iv ∧ t.ivlen = s.ivlen ∧ t.ctr = s.ctr ∧ t.rdy = false ∧ t.dir = s.dir ∧ t.err = s.err ∧
    (∀ j : Nat, Memory.read t.p j = Memory.read s.p j ∧ Memory.read t.q j = Memory.read s.q j)

/-- R152: `IVB b` is `KEYB b` with `IV` and `IVLEN`. -/
def Obligations.IvbAppendsOneByte : Prop :=
  ∀ (b : Byte) (s : State), s.rdy = false → ∃ t, exec (.ivb b) s = .next t ∧ s.Answered t ⟨.ok, 0#4, 0#32⟩ ∧
    (∀ k : Fin 32, t.iv[k.val] = if k.val = s.ivlen.toNat then b else s.iv[k.val]) ∧
    t.ivlen.toNat = (if s.ivlen.toNat < 32 then s.ivlen.toNat + 1 else s.ivlen.toNat) ∧
    t.key = s.key ∧ t.klen = s.klen ∧ t.ctr = s.ctr ∧ t.rdy = false ∧ t.dir = s.dir ∧ t.err = s.err ∧
    (∀ j : Nat, Memory.read t.p j = Memory.read s.p j ∧ Memory.read t.q j = Memory.read s.q j)

/-- R153, R154: the padding and truncation laws. Bytes sent by `KEYB` into an empty key buffer leave the buffer holding
them, zero-padded on the right and cut at 32, and `KLEN` at their number or 32; nothing else of R21 changes. The same for the
IV. -/
def Obligations.LoadingPadsAndTruncates : Prop :=
  ∀ (bytes : List Byte) (s : State), s.rdy = false →
    (s.klen = 0 → s.key = padded [] →
      ∃ t, serveAll (keyWords bytes) s = .next t ∧
        State.SameEngine { s with key := padded bytes, klen := BitVec.ofNat 6 (min bytes.length 32) } t) ∧
    (s.ivlen = 0 → s.iv = padded [] →
      ∃ t, serveAll (ivWords bytes) s = .next t ∧
        State.SameEngine { s with iv := padded bytes, ivlen := BitVec.ofNat 6 (min bytes.length 32) } t)

/-! ### INIT (42_init_expander_warmup.md) -/

/-- R170 to R176: `INIT m` while no instance is live gives the instance of the buffers: the 2560-word recurrence, its
slices, and 4096 generator steps from counter 0; `CTR = 0`, `DIR = m`, `RDY = 1`; the buffers and `ERR` stay. -/
def Obligations.InitBuildsInstanceOfBuffers : Prop :=
  ∀ (m : Mode) (s : State), s.rdy = false → ∃ t, exec (.init m) s = .next t ∧
    s.Answered t ⟨.ok, 0#4, 0#32⟩ ∧
    (∃ P Q : Nat → Word, IsInstance s.key s.iv P Q ∧ HoldsWords t.p P ∧ HoldsWords t.q Q) ∧
    t.ctr = 0 ∧ t.dir = m ∧ t.rdy = true ∧
    t.key = s.key ∧ t.iv = s.iv ∧ t.klen = s.klen ∧ t.ivlen = s.ivlen ∧ t.err = s.err

/-- R179: the tables and the counter after `INIT` depend only on the 64 bytes of the buffers. -/
def Obligations.InitDependsOnlyOnBuffers : Prop :=
  ∀ (m m' : Mode) (s s' t t' : State), s.rdy = false → s'.rdy = false → s'.key = s.key → s'.iv = s.iv →
    exec (.init m) s = .next t → exec (.init m') s' = .next t' → t'.p = t.p ∧ t'.q = t.q ∧ t.ctr = 0 ∧ t'.ctr = 0

/-- R181: the commands of `INITIALIZE key, iv, m` from any state with an idle port leave the instance of the padded key
and IV, `DIR = m`, `RDY = 1`, and every response is `OK`. -/
def Obligations.InitializeCommandsMakeInstance : Prop :=
  ∀ (key iv : List Byte) (m : Mode) (s : State), s.port = .ready →
    ∃ t rs, serveAll (initializeWords key iv m) s = .next t ∧
      t.delivered = s.delivered ++ rs ∧ rs.length = key.length + iv.length + 2 ∧ (∀ r ∈ rs, r.st = .ok) ∧
      (∃ P Q : Nat → Word, IsInstance (padded key) (padded iv) P Q ∧ HoldsWords t.p P ∧ HoldsWords t.q Q) ∧
      t.ctr = 0 ∧ t.dir = m ∧ t.rdy = true ∧ t.err = s.err

/-! ### XOR and the generator (43_generator.md, 44_xor_transform.md) -/

/-- R193, R210: `XOR n, d` with `CTR` in 0..1023 takes a P-active step: `P[CTR]` becomes the new value, `Q` and every
other entry of `P` stay, the counter advances, and lanes 0 to n - 1 of the response are the data XORed with the keystream
word, the other lanes 0. -/
def Obligations.XorTakesPActiveStep : Prop :=
  ∀ (n : BitVec 4) (d : Word) (s : State) (P Q : Nat → Word), 1 ≤ n.toNat → n.toNat ≤ 4 → s.rdy = true →
    s.ctr.toNat < 1024 → HoldsWords s.p P → HoldsWords s.q Q →
    ∃ t, exec (.xor n d) s = .next t ∧
      s.Answered t ⟨.ok, n, (d ^^^ stepWord P Q s.ctr.toNat) &&& BitVec.ofNat 32 (2 ^ (8 * n.toNat) - 1)⟩ ∧
      Memory.read t.p s.ctr.toNat = some (stepNew P Q s.ctr.toNat) ∧
      (∀ k, k ≠ s.ctr.toNat → Memory.read t.p k = Memory.read s.p k) ∧
      (∀ k, Memory.read t.q k = Memory.read s.q k) ∧
      t.ctr.toNat = s.ctr.toNat + 1 ∧
      t.key = s.key ∧ t.iv = s.iv ∧ t.klen = s.klen ∧ t.ivlen = s.ivlen ∧ t.rdy = true ∧ t.dir = s.dir ∧ t.err = s.err

/-- R194, R210: `XOR n, d` with `CTR` in 1024..2047 takes a Q-active step, the tables' roles swapped; after 2047 the
counter is 0 (R191). -/
def Obligations.XorTakesQActiveStep : Prop :=
  ∀ (n : BitVec 4) (d : Word) (s : State) (P Q : Nat → Word), 1 ≤ n.toNat → n.toNat ≤ 4 → s.rdy = true →
    1024 ≤ s.ctr.toNat → HoldsWords s.p P → HoldsWords s.q Q →
    let j := s.ctr.toNat - 1024
    ∃ t, exec (.xor n d) s = .next t ∧
      s.Answered t ⟨.ok, n, (d ^^^ stepWord Q P j) &&& BitVec.ofNat 32 (2 ^ (8 * n.toNat) - 1)⟩ ∧
      Memory.read t.q j = some (stepNew Q P j) ∧
      (∀ k, k ≠ j → Memory.read t.q k = Memory.read s.q k) ∧
      (∀ k, Memory.read t.p k = Memory.read s.p k) ∧
      t.ctr.toNat = (if s.ctr.toNat = 2047 then 0 else s.ctr.toNat + 1) ∧
      t.key = s.key ∧ t.iv = s.iv ∧ t.klen = s.klen ∧ t.ivlen = s.ivlen ∧ t.rdy = true ∧ t.dir = s.dir ∧ t.err = s.err

/-- `XOR` with a legal count is performed in every live engine whose tables are written, which is every live engine that
commands can reach (R210, R41(c)). -/
def Obligations.XorIsPerformedWhenLive : Prop :=
  ∀ (n : BitVec 4) (d : Word) (s : State), 1 ≤ n.toNat → n.toNat ≤ 4 → s.rdy = true → s.Inv →
    ∃ (t : State) (ks : Word), exec (.xor n d) s = .next t ∧ s.Answered t ⟨.ok, n, xorLanes n d ks⟩ ∧
      t.ctr.toNat = (s.ctr.toNat + 1) % 2048

/-- R210 byte by byte, R211, R222: lane k of the output is data byte k XOR keystream byte k for k < n, and 0 from n on. -/
def Obligations.OutputLanesAreIndependent : Prop :=
  ∀ (n : BitVec 4) (d ks : Word) (k : Fin 4), 1 ≤ n.toNat → n.toNat ≤ 4 →
    byteOf k (xorLanes n d ks) = if k.val < n.toNat then byteOf k d ^^^ byteOf k ks else 0x00#8

/-- R101: the data lanes at and above `n` change neither the response nor the state. -/
def Obligations.UpperDataLanesAreIgnored : Prop :=
  ∀ (n : BitVec 4) (d d' : Word) (s t : State), 1 ≤ n.toNat → n.toNat ≤ 4 →
    (∀ k : Fin 4, k.val < n.toNat → byteOf k d = byteOf k d') → exec (.xor n d) s = .next t →
    ∃ t', exec (.xor n d') s = .next t' ∧ t.SameEngine t' ∧ t'.pending = t.pending

/-- R200, R213, R214: the keystream word and the new state depend on the tables and the counter only: not on the data, the
count, the buffers, `DIR` or `ERR`, so a performed `XOR` takes one step whatever `n` is. -/
def Obligations.KeystreamIndependentOfData : Prop :=
  ∀ (s : State), s.Inv → s.rdy = true → ∃ (ks : Word) (p q : Table) (ctr : BitVec 11),
    ∀ (s' : State) (n : BitVec 4) (d : Word), s'.p = s.p → s'.q = s.q → s'.ctr = s.ctr → s'.rdy = true →
      1 ≤ n.toNat → n.toNat ≤ 4 →
      ∃ t, exec (.xor n d) s' = .next t ∧ t.pending = some ⟨.ok, n, xorLanes n d ks⟩ ∧
        t.p = p ∧ t.q = q ∧ t.ctr = ctr

/-- R40, U1: a live engine with an unwritten table stops at the fault; this is the model's representation (log 4), in a
state no command sequence reaches. -/
def Obligations.XorOnUnwrittenTablesFaults : Prop :=
  ∀ (n : BitVec 4) (d : Word) (s : State), 1 ≤ n.toNat → n.toNat ≤ 4 → s.rdy = true →
    (∀ j, Memory.read s.p j = none) → (∀ j, Memory.read s.q j = none) →
    ∃ which j, exec (.xor n d) s = .fault (.unwrittenEntry which j)

/-! ### transform (44_xor_transform.md) -/

/-- R217: `TRANSFORM buf` on a live engine is `ceil(L/4)` performed `XOR` commands, each one generator step; output byte
4m + k is the buffer's byte XOR byte k of the word of step m, and the output has the buffer's length. The state after is the
generator advanced by that many steps and nothing else changed (R214). -/
def Obligations.TransformXorsKeystream : Prop :=
  ∀ (s : State) (g : Stream) (buf : List Byte), s.rdy = true → s.port = .ready → s.Holds g →
    let steps := (buf.length + 3) / 4
    ∃ t rs, serveAll (transformWords buf) s = .next t ∧ t.delivered = s.delivered ++ rs ∧ rs.length = steps ∧
      (∀ r ∈ rs, r.st = .ok) ∧ (outputBytes rs).length = buf.length ∧
      outputBytes rs = List.zipWith (· ^^^ ·) buf ((g.words steps).flatMap wordBytes) ∧
      t.Holds (g.advance steps) ∧ t.rdy = true ∧ t.key = s.key ∧ t.iv = s.iv ∧ t.klen = s.klen ∧ t.ivlen = s.ivlen ∧
      t.dir = s.dir ∧ t.err = s.err

/-- R218: encryption and decryption are the same operation. If `TRANSFORM buf` on an instance freshly made by
`INITIALIZE key, iv, m` returns `out`, then `TRANSFORM out` on an instance freshly made by `INITIALIZE key, iv, m'` returns
`buf`, on any two engines. -/
def Obligations.EncryptThenDecryptRoundTrips : Prop :=
  ∀ (key iv buf : List Byte) (m m' : Mode) (s s' : State), s.port = .ready → s'.port = .ready →
    ∃ u t rs u' t' rs', serveAll (initializeWords key iv m) s = .next u ∧
      serveAll (transformWords buf) u = .next t ∧ t.delivered = u.delivered ++ rs ∧
      serveAll (initializeWords key iv m') s' = .next u' ∧
      serveAll (transformWords (outputBytes rs)) u' = .next t' ∧ t'.delivered = u'.delivered ++ rs' ∧
      outputBytes rs' = buf

/-- R218 for engines that have run on: if `TRANSFORM buf` on an engine returns `out`, then `TRANSFORM out` on an engine
with the same tables and counter returns `buf`, whatever its other fields are. -/
def Obligations.TransformIsItsOwnInverse : Prop :=
  ∀ (s s' t : State) (buf : List Byte) (rs : List Response), s.Inv → s.rdy = true → s.port = .ready →
    s'.rdy = true → s'.port = .ready → s'.p = s.p → s'.q = s.q → s'.ctr = s.ctr →
    serveAll (transformWords buf) s = .next t → t.delivered = s.delivered ++ rs →
    ∃ t' rs', serveAll (transformWords (outputBytes rs)) s' = .next t' ∧ t'.delivered = s'.delivered ++ rs' ∧
      outputBytes rs' = buf

/-- R221: two engines with the same tables and counter use the same keystream: for two buffers of one length the outputs
differ exactly as the inputs do. -/
def Obligations.SameKeystreamLeaksDifference : Prop :=
  ∀ (s s' t t' : State) (buf buf' : List Byte) (rs rs' : List Response), s.Inv → s.rdy = true → s.port = .ready →
    s'.rdy = true → s'.port = .ready → s'.p = s.p → s'.q = s.q → s'.ctr = s.ctr → buf.length = buf'.length →
    serveAll (transformWords buf) s = .next t → t.delivered = s.delivered ++ rs →
    serveAll (transformWords buf') s' = .next t' → t'.delivered = s'.delivered ++ rs' →
    List.zipWith (· ^^^ ·) (outputBytes rs) (outputBytes rs') = List.zipWith (· ^^^ ·) buf buf'

/-- R219, R216: cuts at multiples of four bytes are invisible, and an empty buffer is no command. -/
def Obligations.CutsAtFourBytesAreInvisible : Prop :=
  transformWords [] = [] ∧
  ∀ (a b : List Byte) (s t : State), a.length % 4 = 0 → serveAll (transformWords a) s = .next t →
    serveAll (transformWords (a ++ b)) s = serveAll (transformWords b) t

/-! ### STAT, the reserved rows, refusals (45_status.md, 60_exceptions.md) -/

/-- R230, R35: `STAT` is performed in every state, changes nothing of R21, and returns the status word, whose fields stand at
their bit positions; bits 3 and 31 to 27 read 0. -/
def Obligations.StatReturnsStatusWord : Prop :=
  ∀ s : State, ∃ (t : State) (w : Word), exec .stat s = .next t ∧ s.SameEngine t ∧ s.Answered t ⟨.ok, 0#4, w⟩ ∧
    w.toNat = s.rdy.toNat + 2 * s.dir.bit.toNat + 4 * s.err.toNat + 2 ^ 4 * s.klen.toNat + 2 ^ 10 * s.ivlen.toNat +
      2 ^ 16 * s.ctr.toNat

/-- R242: a word of a reserved row is refused with `ERR_OP`, whatever its other bits hold and whatever the state: `ERR` is
set, the response is `{ERR_OP, 0, 0}`, nothing else of R21 changes (R241). -/
def Obligations.ReservedRowsAreRefused : Prop :=
  ∀ (i : Instr) (s : State), (∃ x, i = .reserved0 x) ∨ (∃ x, i = .reserved7 x) ∨ (∃ x, i = .reserved8F x) →
    ∃ t, exec i s = .next t ∧ s.Answered t ⟨.errOp, 0#4, 0#32⟩ ∧
      State.SameEngine { s with err := true } t

/-- R244, R257: in a live engine `KEYB`, `IVB` and `INIT` are refused with `ERR_SEQ`; with no instance live a well-formed
`XOR` is. -/
def Obligations.OutOfSequenceCommandsAreRefused : Prop :=
  ∀ (i : Instr) (s : State),
    (s.rdy = true ∧ ((∃ b, i = .keyb b) ∨ (∃ b, i = .ivb b) ∨ (∃ m, i = .init m))) ∨
      (s.rdy = false ∧ ∃ n d, i = .xor n d ∧ i.WellFormed) →
    ∃ t, exec i s = .next t ∧ s.Answered t ⟨.errSeq, 0#4, 0#32⟩ ∧ State.SameEngine { s with err := true } t

/-- R243, R245: an `XOR` whose count is not 1 to 4 is refused with `ERR_ARG`, before the lifecycle state is looked at. -/
def Obligations.XorWithBadCountIsRefused : Prop :=
  ∀ (n : BitVec 4) (d : Word) (s : State), n.toNat = 0 ∨ 5 ≤ n.toNat →
    ∃ t, exec (.xor n d) s = .next t ∧ s.Answered t ⟨.errArg, 0#4, 0#32⟩ ∧ State.SameEngine { s with err := true } t

/-- R241, R246: a refusal is precise. Whatever word was refused, the response is `{E, 0, 0}`, `ERR` is set, and no other
field of R21 has changed. -/
def Obligations.RefusalsArePrecise : Prop :=
  ∀ (cw : PortWord) (s t : State) (rsp : Response), perform cw s = .next t → t.pending = some rsp → rsp.st ≠ .ok →
    rsp.n = 0#4 ∧ rsp.d = 0#32 ∧ State.SameEngine { s with err := true } t

/-- R98, R92: every one of the 2^40 command words is answered with exactly one response, in every state that commands can
reach. -/
def Obligations.EveryCommandWordIsAnswered : Prop :=
  ∀ (cw : PortWord) (s : State), s.Inv → ∃ t rsp, perform cw s = .next t ∧ s.Answered t rsp ∧
    (rsp.st = .ok → t.err = s.err)

/-! ### Whole-machine rules -/

/-- The invariant of R41 (a) to (d) holds at reset. -/
def Obligations.InvariantHoldsAtReset : Prop := State.reset.Inv

/-- Every step keeps the invariant of R41 (a) to (d) and the canonical form of the tables. -/
def Obligations.EveryStepKeepsInvariant : Prop :=
  ∀ s t : State, s.Inv → step s = .next t → t.Inv

/-- R131, R246: from a state that meets the invariant no run of any length, under any inputs, stops: there is no fault and
no refusal of the model. -/
def Obligations.InvariantStatesRunForever : Prop :=
  ∀ s : State, s.Inv → s.Safe

/-- R34, R41(f): no step with `rst = 0` clears `ERR`. -/
def Obligations.ErrIsClearedOnlyByReset : Prop :=
  ∀ s t : State, s.edgePins.rst = false → step s = .next t → s.err = true → t.err = true

/-- R34: no behaviour depends on `ERR`. With any value of `ERR` a command is performed or refused the same way, with the same
response but for the `ERR` bit that `STAT` shows. -/
def Obligations.ErrAffectsNothing : Prop :=
  ∀ (i : Instr) (s t : State) (e : Bool), exec i s = .next t →
    ∃ t', exec i { s with err := e } = .next t' ∧ State.SameEngine { t with err := t'.err } t' ∧
      (t.pending.map Response.st = t'.pending.map Response.st) ∧ (i ≠ .stat → t'.pending = t.pending)

/-- R33: no rule of the datapath reads `DIR`. A performed `XOR` does the same for both directions. -/
def Obligations.DirectionAffectsNoTransform : Prop :=
  ∀ (n : BitVec 4) (d : Word) (m : Mode) (s t : State), exec (.xor n d) s = .next t →
    ∃ t', exec (.xor n d) { s with dir := m } = .next t' ∧ State.SameEngine { t with dir := m } t' ∧
      t'.pending = t.pending

/-- R41(e), R155: while an instance is live and stays live, no step changes `KEY`, `IV`, `KLEN`, `IVLEN` or `DIR`. -/
def Obligations.LiveInstanceKeepsBuffers : Prop :=
  ∀ s t : State, step s = .next t → s.rdy = true → t.rdy = true →
    t.key = s.key ∧ t.iv = s.iv ∧ t.klen = s.klen ∧ t.ivlen = s.ivlen ∧ t.dir = s.dir

/-- R32, R45(a): the lifecycle. An instance becomes live only by a performed `INIT` and ends only by `NEW` or reset. That
`RDY` changes at the acceptance edge is the model's (log 12). -/
def Obligations.LifecycleTransitions : Prop :=
  ∀ s t : State, step s = .next t →
    (s.rdy = false → t.rdy = true →
      ∃ m, s.accepts s.edgePins = some (encode (.init m)) ∧ t.dir = m) ∧
    (s.rdy = true → t.rdy = false → s.edgePins.rst = true ∨ s.accepts s.edgePins = some (encode .new))

/-- R27, R28, R31: while an instance is live and stays live, the only change of a table is the one entry a performed `XOR`
writes, `P[CTR]` or `Q[CTR - 1024]`, and the counter advances exactly then. That they move at the
acceptance edge is the model's (log 12). -/
def Obligations.OnlyXorMovesLiveTables : Prop :=
  ∀ s t : State, step s = .next t → s.rdy = true → t.rdy = true →
    (t.p = s.p ∧ t.q = s.q ∧ t.ctr = s.ctr) ∨
    (∃ n d, s.accepts s.edgePins = some (encode (.xor n d)) ∧ 1 ≤ n.toNat ∧ n.toNat ≤ 4 ∧
      t.ctr.toNat = (s.ctr.toNat + 1) % 2048 ∧
      (∀ k, ¬ (s.ctr.toNat < 1024 ∧ k = s.ctr.toNat) → Memory.read t.p k = Memory.read s.p k) ∧
      (∀ k, ¬ (1024 ≤ s.ctr.toNat ∧ k = s.ctr.toNat - 1024) → Memory.read t.q k = Memory.read s.q k))

/-- R42, R35, R231: no response carries anything of `KEY`, `IV`, `P` or `Q` but the keystream of a performed `XOR`. Two
engines that agree on the public fields give the same response to every word that is not an `XOR` performed. -/
def Obligations.ResponsesHideSecretState : Prop :=
  ∀ (cw : PortWord) (s s' t t' : State), s'.klen = s.klen → s'.ivlen = s.ivlen → s'.ctr = s.ctr → s'.rdy = s.rdy →
    s'.dir = s.dir → s'.err = s.err → perform cw s = .next t → perform cw s' = .next t' →
    (∀ n d, decode cw = .ok (.xor n d) → s.rdy = false ∨ ¬ (1 ≤ n.toNat ∧ n.toNat ≤ 4)) →
    t'.pending = t.pending ∧ t'.klen = t.klen ∧ t'.ivlen = t.ivlen ∧ t'.ctr = t.ctr ∧ t'.rdy = t.rdy ∧
      t'.dir = t.dir ∧ t'.err = t.err

/-- R220: two engines that start from the same engine state and get the same command words give the same responses, whatever
the ports' latencies, the pins and the histories are. -/
def Obligations.SameWordsGiveSameResponses : Prop :=
  ∀ (ws : List PortWord) (s s' t : State) (rs : List Response), s.port = .ready → s'.port = .ready → s.SameEngine s' →
    serveAll ws s = .next t → t.delivered = s.delivered ++ rs →
    ∃ t', serveAll ws s' = .next t' ∧ t.SameEngine t' ∧ t'.delivered = s'.delivered ++ rs
end

