-- ==== Sys2Proof/Laws/Arith.lean ====
section
/-! SUPPORT. The word functions as plain arithmetic on numbers. -/

namespace Sys2Proof.Machine

@[simp] theorem add32_eq (a b : Word) : add32 a b = a + b := rfl

/-- `{a, b}` as a number (R8). -/
theorem toNat_append_eq {m n : Nat} (a : BitVec m) (b : BitVec n) : (a ++ b).toNat = 2 ^ n * a.toNat + b.toNat := by
  rw [BitVec.toNat_append, ← Nat.shiftLeft_add_eq_or_of_lt b.isLt, Nat.shiftLeft_eq, Nat.mul_comm]

/-- Byte `k` of a word as a number. -/
theorem byteOf_toNat (k : Fin 4) (w : Word) : (byteOf k w).toNat = w.toNat / 2 ^ (8 * k.val) % 256 := by
  simp [byteOf, BitVec.extractLsb'_toNat, Nat.shiftRight_eq_div_pow]

/-- The index of `h` in quarter `k` as a number (R70). -/
theorem hIndex_toNat (k : Fin 4) (w : Word) : (hIndex k w).toNat = 256 * k.val + w.toNat / 2 ^ (8 * k.val) % 256 := by
  rw [hIndex, BitVec.toNat_append, byteOf_toNat, ← Nat.shiftLeft_add_eq_or_of_lt (Nat.mod_lt _ (by decide))]
  fin_cases k <;> simp [Nat.shiftLeft_eq]

/-- The index of `g` as a number (R126). -/
theorem gIndex_toNat (x y : Word) : (gIndex x y).toNat = (x ^^^ y).toNat % 1024 := by
  rw [gIndex, BitVec.extractLsb'_toNat]
  simp

/-- `sub1024` as a number (R128). -/
theorem sub1024_toNat (j k : Index) : (sub1024 j k).toNat = back j.toNat k.toNat := by
  have := j.isLt
  have := k.isLt
  rw [sub1024, back, BitVec.toNat_sub]
  congr 1
  omega

/-- The write index as a number (R192). -/
theorem writeIndex_toNat (ctr : BitVec 11) : (writeIndex ctr).toNat = ctr.toNat % 1024 := by
  simp [writeIndex, BitVec.extractLsb'_toNat]

/-- The active table from the counter's value (R190). -/
theorem activeTable_eq (ctr : BitVec 11) : activeTable ctr = if ctr.toNat < 1024 then .p else .q := by
  have hc := ctr.isLt
  have hb : ctr.getLsbD 10 = decide (1024 ≤ ctr.toNat) := by
    rw [BitVec.getLsbD, Nat.testBit_eq_decide_div_mod_eq]
    congr 1
    apply propext
    omega
  rw [activeTable, hb]
  by_cases h : ctr.toNat < 1024
  · rw [if_pos h, if_neg (by simpa using h)]
  · rw [if_neg h, if_pos (by simpa using h)]

/-- The next counter as a number (R191). -/
theorem nextCounter_toNat (ctr : BitVec 11) : (nextCounter ctr).toNat = (ctr.toNat + 1) % 2048 := by
  simp [nextCounter, BitVec.toNat_add]

/-- Where the low bits of a count lie, for the counts `XOR` allows. -/
theorem countLegal_iff (n : BitVec 4) : countLegal n = true ↔ 1 ≤ n.toNat ∧ n.toNat ≤ 4 := by
  simp [countLegal]

/-- The four masks of R210. -/
theorem laneMask_values : laneMask 1 = 0x000000FF#32 ∧ laneMask 2 = 0x0000FFFF#32 ∧ laneMask 3 = 0x00FFFFFF#32 ∧
    laneMask 4 = 0xFFFFFFFF#32 := by
  decide

end Sys2Proof.Machine
end

