-- ==== Sys2Proof/Laws/Decode.lean ====
section
/-! SUPPORT. The fields of a command word that is written as `{op, n, d}` (30_encoding.md R93). -/

namespace Sys2Proof

/-- `{op, n, d}` has the opcode `op`. -/
@[simp] theorem opField_append (a n : BitVec 4) (d : Word) : opField (a ++ n ++ d) = a := by
  ext i hi
  rw [opField, BitVec.getElem_extractLsb', BitVec.getLsbD_append, BitVec.getLsbD_append, if_neg (by omega),
    if_neg (by omega), show 36 + i - 32 - 4 = i by omega, BitVec.getLsbD_eq_getElem hi]

/-- `{op, n, d}` has the count field `n`. -/
@[simp] theorem nField_append (a n : BitVec 4) (d : Word) : nField (a ++ n ++ d) = n := by
  ext i hi
  rw [nField, BitVec.getElem_extractLsb', BitVec.getLsbD_append, BitVec.getLsbD_append, if_neg (by omega),
    if_pos (by omega), show 32 + i - 32 = i by omega, BitVec.getLsbD_eq_getElem hi]

/-- `{op, n, d}` has the data field `d`. -/
@[simp] theorem dField_append (a n : BitVec 4) (d : Word) : dField (a ++ n ++ d) = d := by
  ext i hi
  rw [dField, BitVec.getElem_extractLsb', BitVec.getLsbD_append, if_pos (by omega), Nat.zero_add,
    BitVec.getLsbD_eq_getElem hi]

/-- A command word is `{op, n, d}` of its own fields (R93). -/
theorem fields_append (cw : PortWord) : opField cw ++ nField cw ++ dField cw = cw := by
  ext i hi
  simp only [BitVec.getElem_append, opField, nField, dField, BitVec.getElem_extractLsb']
  split
  · simp [BitVec.getLsbD_eq_getElem hi]
  · split
    · simp [show 32 + (i - 32) = i by omega, BitVec.getLsbD_eq_getElem hi]
    · simp [show 36 + (i - 32 - 4) = i by omega, BitVec.getLsbD_eq_getElem hi]

/-- Decoding a word that is written as `{op, n, d}` (R100). Use it with `rw`: simp merges literal fields. -/
theorem decode_append (a n : BitVec 4) (d : Word) :
    decode (a ++ n ++ d) =
      if a = 0x0#4 then .ok (.reserved0 ((a ++ n ++ d).extractLsb' 0 36))
      else if a = 0x1#4 then if n = 0#4 ∧ d = 0#32 then .ok .new else .error .newField
      else if a = 0x2#4 then
        if n = 0#4 ∧ d.extractLsb' 8 24 = 0#24 then .ok (.keyb (d.extractLsb' 0 8)) else .error .keybField
      else if a = 0x3#4 then
        if n = 0#4 ∧ d.extractLsb' 8 24 = 0#24 then .ok (.ivb (d.extractLsb' 0 8)) else .error .ivbField
      else if a = 0x4#4 then
        if n = 0#4 ∧ d.extractLsb' 1 31 = 0#31 then .ok (.init (Mode.ofBit (d.getLsbD 0))) else .error .initField
      else if a = 0x5#4 then .ok (.xor n d)
      else if a = 0x6#4 then if n = 0#4 ∧ d = 0#32 then .ok .stat else .error .statField
      else if a = 0x7#4 then .ok (.reserved7 ((a ++ n ++ d).extractLsb' 0 36))
      else .ok (.reserved8F ((a ++ n ++ d).extractLsb' 0 39)) := by
  unfold decode
  simp only [opField_append, nField_append, dField_append]

/-- The byte of a data field `{0, b}`. -/
theorem extract_byte (b : Byte) : (0#24 ++ b).extractLsb' 0 8 = b := by
  ext i hi
  rw [BitVec.getElem_extractLsb', BitVec.getLsbD_append, if_pos (by omega), Nat.zero_add, BitVec.getLsbD_eq_getElem hi]

/-- The rest of a data field `{0, b}` is zero. -/
theorem extract_above_byte (b : Byte) : (0#24 ++ b).extractLsb' 8 24 = 0#24 := by
  ext i hi
  rw [BitVec.getElem_extractLsb', BitVec.getLsbD_append, if_neg (by omega)]
  simp

/-- The opcode of a command word as a number. -/
theorem opField_toNat (cw : PortWord) : (opField cw).toNat = cw.toNat / 2 ^ 36 := by
  have := cw.isLt
  rw [opField, BitVec.extractLsb'_toNat, Nat.shiftRight_eq_div_pow, Nat.mod_eq_of_lt (by omega)]

/-- The count field of a command word as a number. -/
theorem nField_toNat (cw : PortWord) : (nField cw).toNat = cw.toNat / 2 ^ 32 % 16 := by
  rw [nField, BitVec.extractLsb'_toNat, Nat.shiftRight_eq_div_pow]

/-- The data field of a command word as a number. -/
theorem dField_toNat (cw : PortWord) : (dField cw).toNat = cw.toNat % 2 ^ 32 := by
  rw [dField, BitVec.extractLsb'_toNat, Nat.shiftRight_zero]

end Sys2Proof
end

