-- ==== Sys2Proof/Laws/State.lean ====
section
/-! SUPPORT. One lemma per field per shared update of State, so that no proof unfolds a record update. -/

namespace Sys2Proof.Machine

variable (s : State)

/-! ### `State.respond` -/

@[simp] theorem State.respond_key (wait : Nat) (rsp : Response) : (s.respond wait rsp).key = s.key := rfl

@[simp] theorem State.respond_iv (wait : Nat) (rsp : Response) : (s.respond wait rsp).iv = s.iv := rfl

@[simp] theorem State.respond_klen (wait : Nat) (rsp : Response) : (s.respond wait rsp).klen = s.klen := rfl

@[simp] theorem State.respond_ivlen (wait : Nat) (rsp : Response) : (s.respond wait rsp).ivlen = s.ivlen := rfl

@[simp] theorem State.respond_p (wait : Nat) (rsp : Response) : (s.respond wait rsp).p = s.p := rfl

@[simp] theorem State.respond_q (wait : Nat) (rsp : Response) : (s.respond wait rsp).q = s.q := rfl

@[simp] theorem State.respond_ctr (wait : Nat) (rsp : Response) : (s.respond wait rsp).ctr = s.ctr := rfl

@[simp] theorem State.respond_rdy (wait : Nat) (rsp : Response) : (s.respond wait rsp).rdy = s.rdy := rfl

@[simp] theorem State.respond_dir (wait : Nat) (rsp : Response) : (s.respond wait rsp).dir = s.dir := rfl

@[simp] theorem State.respond_err (wait : Nat) (rsp : Response) : (s.respond wait rsp).err = s.err := rfl

@[simp] theorem State.respond_port (wait : Nat) (rsp : Response) : (s.respond wait rsp).port = .inFlight wait rsp := rfl

@[simp] theorem State.respond_pins (wait : Nat) (rsp : Response) : (s.respond wait rsp).pins = s.pins := rfl

@[simp] theorem State.respond_served (wait : Nat) (rsp : Response) : (s.respond wait rsp).served = s.served + 1 := rfl

@[simp] theorem State.respond_delivered (wait : Nat) (rsp : Response) : (s.respond wait rsp).delivered = s.delivered := rfl

/-! ### `State.answer` -/

@[simp] theorem State.answer_key (d : Word) : (s.answer d).key = s.key := rfl

@[simp] theorem State.answer_iv (d : Word) : (s.answer d).iv = s.iv := rfl

@[simp] theorem State.answer_klen (d : Word) : (s.answer d).klen = s.klen := rfl

@[simp] theorem State.answer_ivlen (d : Word) : (s.answer d).ivlen = s.ivlen := rfl

@[simp] theorem State.answer_p (d : Word) : (s.answer d).p = s.p := rfl

@[simp] theorem State.answer_q (d : Word) : (s.answer d).q = s.q := rfl

@[simp] theorem State.answer_ctr (d : Word) : (s.answer d).ctr = s.ctr := rfl

@[simp] theorem State.answer_rdy (d : Word) : (s.answer d).rdy = s.rdy := rfl

@[simp] theorem State.answer_dir (d : Word) : (s.answer d).dir = s.dir := rfl

@[simp] theorem State.answer_err (d : Word) : (s.answer d).err = s.err := rfl

@[simp] theorem State.answer_port (d : Word) : (s.answer d).port = .inFlight (Config.cmdWait s.served) ⟨.ok, 0#4, d⟩ := rfl

@[simp] theorem State.answer_pins (d : Word) : (s.answer d).pins = s.pins := rfl

@[simp] theorem State.answer_served (d : Word) : (s.answer d).served = s.served + 1 := rfl

@[simp] theorem State.answer_delivered (d : Word) : (s.answer d).delivered = s.delivered := rfl

/-! ### `State.refuse` -/

@[simp] theorem State.refuse_key (e : Status) : (s.refuse e).key = s.key := rfl

@[simp] theorem State.refuse_iv (e : Status) : (s.refuse e).iv = s.iv := rfl

@[simp] theorem State.refuse_klen (e : Status) : (s.refuse e).klen = s.klen := rfl

@[simp] theorem State.refuse_ivlen (e : Status) : (s.refuse e).ivlen = s.ivlen := rfl

@[simp] theorem State.refuse_p (e : Status) : (s.refuse e).p = s.p := rfl

@[simp] theorem State.refuse_q (e : Status) : (s.refuse e).q = s.q := rfl

@[simp] theorem State.refuse_ctr (e : Status) : (s.refuse e).ctr = s.ctr := rfl

@[simp] theorem State.refuse_rdy (e : Status) : (s.refuse e).rdy = s.rdy := rfl

@[simp] theorem State.refuse_dir (e : Status) : (s.refuse e).dir = s.dir := rfl

@[simp] theorem State.refuse_err (e : Status) : (s.refuse e).err = true := rfl

@[simp] theorem State.refuse_port (e : Status) : (s.refuse e).port = .inFlight (Config.cmdWait s.served) ⟨e, 0#4, 0#32⟩ := rfl

@[simp] theorem State.refuse_pins (e : Status) : (s.refuse e).pins = s.pins := rfl

@[simp] theorem State.refuse_served (e : Status) : (s.refuse e).served = s.served + 1 := rfl

@[simp] theorem State.refuse_delivered (e : Status) : (s.refuse e).delivered = s.delivered := rfl

/-! ### `State.deliver` -/

@[simp] theorem State.deliver_key : (s.deliver).key = s.key := by
  unfold State.deliver; split <;> rfl

@[simp] theorem State.deliver_iv : (s.deliver).iv = s.iv := by
  unfold State.deliver; split <;> rfl

@[simp] theorem State.deliver_klen : (s.deliver).klen = s.klen := by
  unfold State.deliver; split <;> rfl

@[simp] theorem State.deliver_ivlen : (s.deliver).ivlen = s.ivlen := by
  unfold State.deliver; split <;> rfl

@[simp] theorem State.deliver_p : (s.deliver).p = s.p := by
  unfold State.deliver; split <;> rfl

@[simp] theorem State.deliver_q : (s.deliver).q = s.q := by
  unfold State.deliver; split <;> rfl

@[simp] theorem State.deliver_ctr : (s.deliver).ctr = s.ctr := by
  unfold State.deliver; split <;> rfl

@[simp] theorem State.deliver_rdy : (s.deliver).rdy = s.rdy := by
  unfold State.deliver; split <;> rfl

@[simp] theorem State.deliver_dir : (s.deliver).dir = s.dir := by
  unfold State.deliver; split <;> rfl

@[simp] theorem State.deliver_err : (s.deliver).err = s.err := by
  unfold State.deliver; split <;> rfl

@[simp] theorem State.deliver_port : (s.deliver).port = .ready := by
  unfold State.deliver; split <;> simp_all

@[simp] theorem State.deliver_pins : (s.deliver).pins = s.pins := by
  unfold State.deliver; split <;> rfl

@[simp] theorem State.deliver_served : (s.deliver).served = s.served := by
  unfold State.deliver; split <;> rfl

@[simp] theorem State.deliver_delivered : (s.deliver).delivered = s.delivered ++ s.pending.toList := by
  unfold State.deliver; split <;> simp_all [State.pending]

/-! ### `State.resetEdge` -/

@[simp] theorem State.resetEdge_key : (s.resetEdge).key = State.reset.key := rfl

@[simp] theorem State.resetEdge_iv : (s.resetEdge).iv = State.reset.iv := rfl

@[simp] theorem State.resetEdge_klen : (s.resetEdge).klen = State.reset.klen := rfl

@[simp] theorem State.resetEdge_ivlen : (s.resetEdge).ivlen = State.reset.ivlen := rfl

@[simp] theorem State.resetEdge_p : (s.resetEdge).p = State.reset.p := rfl

@[simp] theorem State.resetEdge_q : (s.resetEdge).q = State.reset.q := rfl

@[simp] theorem State.resetEdge_ctr : (s.resetEdge).ctr = State.reset.ctr := rfl

@[simp] theorem State.resetEdge_rdy : (s.resetEdge).rdy = State.reset.rdy := rfl

@[simp] theorem State.resetEdge_dir : (s.resetEdge).dir = State.reset.dir := rfl

@[simp] theorem State.resetEdge_err : (s.resetEdge).err = State.reset.err := rfl

@[simp] theorem State.resetEdge_port : (s.resetEdge).port = State.reset.port := rfl

@[simp] theorem State.resetEdge_pins : (s.resetEdge).pins = s.pins := rfl

@[simp] theorem State.resetEdge_served : (s.resetEdge).served = s.served := rfl

@[simp] theorem State.resetEdge_delivered : (s.resetEdge).delivered = s.delivered := rfl

/-! ### `State.dropEdge` -/

@[simp] theorem State.dropEdge_key : (s.dropEdge).key = s.key := rfl

@[simp] theorem State.dropEdge_iv : (s.dropEdge).iv = s.iv := rfl

@[simp] theorem State.dropEdge_klen : (s.dropEdge).klen = s.klen := rfl

@[simp] theorem State.dropEdge_ivlen : (s.dropEdge).ivlen = s.ivlen := rfl

@[simp] theorem State.dropEdge_p : (s.dropEdge).p = s.p := rfl

@[simp] theorem State.dropEdge_q : (s.dropEdge).q = s.q := rfl

@[simp] theorem State.dropEdge_ctr : (s.dropEdge).ctr = s.ctr := rfl

@[simp] theorem State.dropEdge_rdy : (s.dropEdge).rdy = s.rdy := rfl

@[simp] theorem State.dropEdge_dir : (s.dropEdge).dir = s.dir := rfl

@[simp] theorem State.dropEdge_err : (s.dropEdge).err = s.err := rfl

@[simp] theorem State.dropEdge_port : (s.dropEdge).port = s.port := rfl

@[simp] theorem State.dropEdge_pins : (s.dropEdge).pins = s.pins.tail := rfl

@[simp] theorem State.dropEdge_served : (s.dropEdge).served = s.served := rfl

@[simp] theorem State.dropEdge_delivered : (s.dropEdge).delivered = s.delivered := rfl

/-! ### `State.clear` -/

@[simp] theorem State.clear_key : (s.clear).key = Vector.replicate 32 0x00#8 := rfl

@[simp] theorem State.clear_iv : (s.clear).iv = Vector.replicate 32 0x00#8 := rfl

@[simp] theorem State.clear_klen : (s.clear).klen = 0 := rfl

@[simp] theorem State.clear_ivlen : (s.clear).ivlen = 0 := rfl

@[simp] theorem State.clear_p : (s.clear).p = [] := rfl

@[simp] theorem State.clear_q : (s.clear).q = [] := rfl

@[simp] theorem State.clear_ctr : (s.clear).ctr = 0 := rfl

@[simp] theorem State.clear_rdy : (s.clear).rdy = false := rfl

@[simp] theorem State.clear_dir : (s.clear).dir = .encrypt := rfl

@[simp] theorem State.clear_err : (s.clear).err = s.err := rfl

@[simp] theorem State.clear_port : (s.clear).port = s.port := rfl

@[simp] theorem State.clear_pins : (s.clear).pins = s.pins := rfl

@[simp] theorem State.clear_served : (s.clear).served = s.served := rfl

@[simp] theorem State.clear_delivered : (s.clear).delivered = s.delivered := rfl

/-! ### `State.pushKey` -/

@[simp] theorem State.pushKey_iv (b : Byte) : (s.pushKey b).iv = s.iv := by
  unfold State.pushKey; split <;> rfl

@[simp] theorem State.pushKey_ivlen (b : Byte) : (s.pushKey b).ivlen = s.ivlen := by
  unfold State.pushKey; split <;> rfl

@[simp] theorem State.pushKey_p (b : Byte) : (s.pushKey b).p = s.p := by
  unfold State.pushKey; split <;> rfl

@[simp] theorem State.pushKey_q (b : Byte) : (s.pushKey b).q = s.q := by
  unfold State.pushKey; split <;> rfl

@[simp] theorem State.pushKey_ctr (b : Byte) : (s.pushKey b).ctr = s.ctr := by
  unfold State.pushKey; split <;> rfl

@[simp] theorem State.pushKey_rdy (b : Byte) : (s.pushKey b).rdy = s.rdy := by
  unfold State.pushKey; split <;> rfl

@[simp] theorem State.pushKey_dir (b : Byte) : (s.pushKey b).dir = s.dir := by
  unfold State.pushKey; split <;> rfl

@[simp] theorem State.pushKey_err (b : Byte) : (s.pushKey b).err = s.err := by
  unfold State.pushKey; split <;> rfl

@[simp] theorem State.pushKey_port (b : Byte) : (s.pushKey b).port = s.port := by
  unfold State.pushKey; split <;> rfl

@[simp] theorem State.pushKey_pins (b : Byte) : (s.pushKey b).pins = s.pins := by
  unfold State.pushKey; split <;> rfl

@[simp] theorem State.pushKey_served (b : Byte) : (s.pushKey b).served = s.served := by
  unfold State.pushKey; split <;> rfl

@[simp] theorem State.pushKey_delivered (b : Byte) : (s.pushKey b).delivered = s.delivered := by
  unfold State.pushKey; split <;> rfl

/-! ### `State.pushIv` -/

@[simp] theorem State.pushIv_key (b : Byte) : (s.pushIv b).key = s.key := by
  unfold State.pushIv; split <;> rfl

@[simp] theorem State.pushIv_klen (b : Byte) : (s.pushIv b).klen = s.klen := by
  unfold State.pushIv; split <;> rfl

@[simp] theorem State.pushIv_p (b : Byte) : (s.pushIv b).p = s.p := by
  unfold State.pushIv; split <;> rfl

@[simp] theorem State.pushIv_q (b : Byte) : (s.pushIv b).q = s.q := by
  unfold State.pushIv; split <;> rfl

@[simp] theorem State.pushIv_ctr (b : Byte) : (s.pushIv b).ctr = s.ctr := by
  unfold State.pushIv; split <;> rfl

@[simp] theorem State.pushIv_rdy (b : Byte) : (s.pushIv b).rdy = s.rdy := by
  unfold State.pushIv; split <;> rfl

@[simp] theorem State.pushIv_dir (b : Byte) : (s.pushIv b).dir = s.dir := by
  unfold State.pushIv; split <;> rfl

@[simp] theorem State.pushIv_err (b : Byte) : (s.pushIv b).err = s.err := by
  unfold State.pushIv; split <;> rfl

@[simp] theorem State.pushIv_port (b : Byte) : (s.pushIv b).port = s.port := by
  unfold State.pushIv; split <;> rfl

@[simp] theorem State.pushIv_pins (b : Byte) : (s.pushIv b).pins = s.pins := by
  unfold State.pushIv; split <;> rfl

@[simp] theorem State.pushIv_served (b : Byte) : (s.pushIv b).served = s.served := by
  unfold State.pushIv; split <;> rfl

@[simp] theorem State.pushIv_delivered (b : Byte) : (s.pushIv b).delivered = s.delivered := by
  unfold State.pushIv; split <;> rfl

/-! ### `State.create` -/

@[simp] theorem State.create_key (m : Mode) : (s.create m).key = s.key := by
  unfold State.create; rfl

@[simp] theorem State.create_iv (m : Mode) : (s.create m).iv = s.iv := by
  unfold State.create; rfl

@[simp] theorem State.create_klen (m : Mode) : (s.create m).klen = s.klen := by
  unfold State.create; rfl

@[simp] theorem State.create_ivlen (m : Mode) : (s.create m).ivlen = s.ivlen := by
  unfold State.create; rfl

@[simp] theorem State.create_p (m : Mode) : (s.create m).p = Memory.ofWords (instanceOf s.key s.iv).p := by
  unfold State.create; rfl

@[simp] theorem State.create_q (m : Mode) : (s.create m).q = Memory.ofWords (instanceOf s.key s.iv).q := by
  unfold State.create; rfl

@[simp] theorem State.create_ctr (m : Mode) : (s.create m).ctr = (instanceOf s.key s.iv).ctr := by
  unfold State.create; rfl

@[simp] theorem State.create_rdy (m : Mode) : (s.create m).rdy = true := by
  unfold State.create; rfl

@[simp] theorem State.create_dir (m : Mode) : (s.create m).dir = m := by
  unfold State.create; rfl

@[simp] theorem State.create_err (m : Mode) : (s.create m).err = s.err := by
  unfold State.create; rfl

@[simp] theorem State.create_port (m : Mode) : (s.create m).port = s.port := by
  unfold State.create; rfl

@[simp] theorem State.create_pins (m : Mode) : (s.create m).pins = s.pins := by
  unfold State.create; rfl

@[simp] theorem State.create_served (m : Mode) : (s.create m).served = s.served := by
  unfold State.create; rfl

@[simp] theorem State.create_delivered (m : Mode) : (s.create m).delivered = s.delivered := by
  unfold State.create; rfl

/-! ### `State.writeEntry` -/

@[simp] theorem State.writeEntry_key (A : TableName) (j : Index) (w : Word) : (s.writeEntry A j w).key = s.key := by
  cases A <;> rfl

@[simp] theorem State.writeEntry_iv (A : TableName) (j : Index) (w : Word) : (s.writeEntry A j w).iv = s.iv := by
  cases A <;> rfl

@[simp] theorem State.writeEntry_klen (A : TableName) (j : Index) (w : Word) : (s.writeEntry A j w).klen = s.klen := by
  cases A <;> rfl

@[simp] theorem State.writeEntry_ivlen (A : TableName) (j : Index) (w : Word) : (s.writeEntry A j w).ivlen = s.ivlen := by
  cases A <;> rfl

@[simp] theorem State.writeEntry_ctr (A : TableName) (j : Index) (w : Word) : (s.writeEntry A j w).ctr = s.ctr := by
  cases A <;> rfl

@[simp] theorem State.writeEntry_rdy (A : TableName) (j : Index) (w : Word) : (s.writeEntry A j w).rdy = s.rdy := by
  cases A <;> rfl

@[simp] theorem State.writeEntry_dir (A : TableName) (j : Index) (w : Word) : (s.writeEntry A j w).dir = s.dir := by
  cases A <;> rfl

@[simp] theorem State.writeEntry_err (A : TableName) (j : Index) (w : Word) : (s.writeEntry A j w).err = s.err := by
  cases A <;> rfl

@[simp] theorem State.writeEntry_port (A : TableName) (j : Index) (w : Word) : (s.writeEntry A j w).port = s.port := by
  cases A <;> rfl

@[simp] theorem State.writeEntry_pins (A : TableName) (j : Index) (w : Word) : (s.writeEntry A j w).pins = s.pins := by
  cases A <;> rfl

@[simp] theorem State.writeEntry_served (A : TableName) (j : Index) (w : Word) : (s.writeEntry A j w).served = s.served := by
  cases A <;> rfl

@[simp] theorem State.writeEntry_delivered (A : TableName) (j : Index) (w : Word) : (s.writeEntry A j w).delivered = s.delivered := by
  cases A <;> rfl

/-! ### `State.withCommand` -/

@[simp] theorem State.withCommand_key (cw : PortWord) : (s.withCommand cw).key = s.key := rfl

@[simp] theorem State.withCommand_iv (cw : PortWord) : (s.withCommand cw).iv = s.iv := rfl

@[simp] theorem State.withCommand_klen (cw : PortWord) : (s.withCommand cw).klen = s.klen := rfl

@[simp] theorem State.withCommand_ivlen (cw : PortWord) : (s.withCommand cw).ivlen = s.ivlen := rfl

@[simp] theorem State.withCommand_p (cw : PortWord) : (s.withCommand cw).p = s.p := rfl

@[simp] theorem State.withCommand_q (cw : PortWord) : (s.withCommand cw).q = s.q := rfl

@[simp] theorem State.withCommand_ctr (cw : PortWord) : (s.withCommand cw).ctr = s.ctr := rfl

@[simp] theorem State.withCommand_rdy (cw : PortWord) : (s.withCommand cw).rdy = s.rdy := rfl

@[simp] theorem State.withCommand_dir (cw : PortWord) : (s.withCommand cw).dir = s.dir := rfl

@[simp] theorem State.withCommand_err (cw : PortWord) : (s.withCommand cw).err = s.err := rfl

@[simp] theorem State.withCommand_port (cw : PortWord) : (s.withCommand cw).port = .ready := rfl

@[simp] theorem State.withCommand_pins (cw : PortWord) : (s.withCommand cw).pins = Pins.command cw :: s.pins := rfl

@[simp] theorem State.withCommand_served (cw : PortWord) : (s.withCommand cw).served = s.served := rfl

@[simp] theorem State.withCommand_delivered (cw : PortWord) : (s.withCommand cw).delivered = s.delivered := rfl

/-! ### What is in flight -/

@[simp] theorem State.respond_pending (wait : Nat) (rsp : Response) : (s.respond wait rsp).pending = some rsp := rfl

@[simp] theorem State.answer_pending (d : Word) : (s.answer d).pending = some ⟨.ok, 0#4, d⟩ := rfl

@[simp] theorem State.refuse_pending (e : Status) : (s.refuse e).pending = some ⟨e, 0#4, 0#32⟩ := rfl

@[simp] theorem State.deliver_pending : s.deliver.pending = none := by
  unfold State.deliver; split <;> simp_all [State.pending]

@[simp] theorem State.dropEdge_pending : s.dropEdge.pending = s.pending := rfl

@[simp] theorem State.resetEdge_pending : s.resetEdge.pending = none := rfl

/-! ### The entries a key or an IV byte writes -/

theorem State.pushKey_of_lt (b : Byte) (hlt : s.klen.toNat < 32) :
    s.pushKey b = { s with key := s.key.set s.klen.toNat b, klen := s.klen + 1 } := by
  simp [State.pushKey, hlt]

theorem State.pushKey_of_full (b : Byte) (hge : 32 ≤ s.klen.toNat) : s.pushKey b = s := by
  simp [State.pushKey, Nat.not_lt.mpr hge]

theorem State.pushIv_of_lt (b : Byte) (hlt : s.ivlen.toNat < 32) :
    s.pushIv b = { s with iv := s.iv.set s.ivlen.toNat b, ivlen := s.ivlen + 1 } := by
  simp [State.pushIv, hlt]

theorem State.pushIv_of_full (b : Byte) (hge : 32 ≤ s.ivlen.toNat) : s.pushIv b = s := by
  simp [State.pushIv, Nat.not_lt.mpr hge]

/-! ### The tables -/

@[simp] theorem State.table_p : s.table .p = s.p := rfl

@[simp] theorem State.table_q : s.table .q = s.q := rfl

@[simp] theorem State.writeEntry_table (A : TableName) (j : Index) (w : Word) :
    (s.writeEntry A j w).table A = Memory.write (s.table A) j.toNat w := by
  cases A <;> rfl

@[simp] theorem State.writeEntry_other (A : TableName) (j : Index) (w : Word) :
    (s.writeEntry A j w).table A.other = s.table A.other := by
  cases A <;> rfl

end Sys2Proof.Machine
end

