-- ==== Sys2Proof/Laws/Memory.lean ====
section
/-! SUPPORT. What the table operations do: read after write, and that every one keeps the canonical form. -/

namespace Sys2Proof.Machine

/-- The word a read gives after a write (20_memory.md R73: "every read returns the value of the most recent write"). -/
@[simp] theorem Memory.read_write (t : Table) (j k : Nat) (w : Word) :
    Memory.read (Memory.write t j w) k = if k = j then some w else Memory.read t k := by
  induction t with
  | nil => by_cases h : j = k <;> simp [Memory.write, Memory.read, Memory.unlisted, h, eq_comm]
  | cons e t ih =>
    obtain ⟨i, v⟩ := e
    unfold Memory.write
    split
    · by_cases h : j = k <;> simp [Memory.read, h, eq_comm]
    · split
      · rename_i h; subst h
        by_cases h : j = k
        · subst h; simp [Memory.read]
        · simp [Memory.read, h, Ne.symm h]
      · rename_i h1 h2
        by_cases h : i = k
        · subst h; simp [Memory.read, Ne.symm h2]
        · simp [Memory.read, h, ih]

/-- A read of the empty table gives no value (R40). -/
@[simp] theorem Memory.read_nil (j : Nat) : Memory.read [] j = none := rfl

theorem Memory.wfFrom_mono {t : Table} {lo lo' : Nat} (hle : lo' ≤ lo) (h : Memory.wfFrom lo t = true) :
    Memory.wfFrom lo' t = true := by
  cases t with
  | nil => rfl
  | cons e t =>
    simp only [Memory.wfFrom, Bool.and_eq_true, decide_eq_true_eq] at h ⊢
    exact ⟨⟨by omega, h.1.2⟩, h.2⟩

theorem Memory.wfFrom_write {t : Table} {lo j : Nat} (w : Word) (hlo : lo ≤ j) (hj : j < 1024)
    (h : Memory.wfFrom lo t = true) : Memory.wfFrom lo (Memory.write t j w) = true := by
  induction t generalizing lo with
  | nil => simp [Memory.write, Memory.wfFrom, hlo, hj]
  | cons e t ih =>
    obtain ⟨i, v⟩ := e
    simp only [Memory.wfFrom, Bool.and_eq_true, decide_eq_true_eq] at h
    obtain ⟨⟨hli, hi⟩, ht⟩ := h
    unfold Memory.write
    split
    · rename_i hji
      simp only [Memory.wfFrom, Bool.and_eq_true, decide_eq_true_eq]
      exact ⟨⟨hlo, hj⟩, ⟨by omega, hi⟩, ht⟩
    · split
      · rename_i hji; subst hji
        simp only [Memory.wfFrom, Bool.and_eq_true, decide_eq_true_eq]
        exact ⟨⟨hlo, hj⟩, ht⟩
      · simp only [Memory.wfFrom, Bool.and_eq_true, decide_eq_true_eq]
        exact ⟨⟨hli, hi⟩, ih (by omega) ht⟩

/-- The empty table is in canonical form. -/
@[simp] theorem Memory.wf_nil : Memory.wf [] = true := rfl

/-- A write keeps the canonical form. -/
theorem Memory.wf_write {t : Table} (j : Index) (w : Word) (h : Memory.wf t = true) :
    Memory.wf (Memory.write t j.toNat w) = true :=
  Memory.wfFrom_write w (Nat.zero_le _) j.isLt h

/-- A write keeps a table complete. -/
theorem Memory.complete_write {t : Table} (j : Index) (w : Word) (h : Memory.Complete t) :
    Memory.Complete (Memory.write t j.toNat w) := by
  intro k
  rw [Memory.read_write]
  split
  · rfl
  · exact h k

theorem shift_cell (n lo : Nat) (v : Nat → Word) :
    (fun j : Fin n => (lo + j.succ.val, v j.succ.val)) = fun j : Fin n => (lo + 1 + j.val, v (j.val + 1)) := by
  funext j
  rw [Fin.val_succ, Nat.add_comm j.val 1, ← Nat.add_assoc, Nat.add_comm 1 j.val]

theorem Memory.read_ofFn (n lo k : Nat) (v : Nat → Word) :
    Memory.read (List.ofFn fun j : Fin n => (lo + j.val, v j.val)) k =
      if lo ≤ k ∧ k < lo + n then some (v (k - lo)) else none := by
  induction n generalizing lo v with
  | zero => rw [List.ofFn_zero, Memory.read_nil, if_neg (by omega)]
  | succ n ih =>
    rw [List.ofFn_succ, Memory.read, shift_cell, ih (lo + 1) (fun i => v (i + 1))]
    by_cases h : lo = k
    · subst h; simp
    · simp only [Fin.val_zero, Nat.add_zero, h, if_false]
      by_cases hk : lo + 1 ≤ k ∧ k < lo + 1 + n
      · rw [if_pos hk, if_pos (by omega), show k - (lo + 1) + 1 = k - lo by omega]
      · rw [if_neg hk, if_neg (by omega)]

theorem Memory.wf_ofFn (n lo : Nat) (v : Nat → Word) (h : lo + n ≤ 1024) :
    Memory.wfFrom lo (List.ofFn fun j : Fin n => (lo + j.val, v j.val)) = true := by
  induction n generalizing lo v with
  | zero => rfl
  | succ n ih =>
    rw [List.ofFn_succ, Memory.wfFrom, shift_cell]
    rw [Bool.and_eq_true, decide_eq_true_eq]
    exact ⟨⟨Nat.le_refl _, by show lo + 0 < 1024; omega⟩, ih (lo + 1) (fun i => v (i + 1)) (by omega)⟩

theorem Memory.ofWords_eq (w : Words) :
    Memory.ofWords w = List.ofFn fun j : Fin 1024 => (0 + j.val, (w[j.val]?).getD 0) := by
  unfold Memory.ofWords
  congr 1
  funext j
  simp

/-- Every entry of a table made of 1024 words reads as its word. -/
@[simp] theorem Memory.read_ofWords (w : Words) (j : Nat) : Memory.read (Memory.ofWords w) j = w[j]? := by
  rw [Memory.ofWords_eq, Memory.read_ofFn 1024 0 j fun i => (w[i]?).getD 0]
  by_cases h : j < 1024
  · simp [h]
  · simp [h]

/-- A table made of 1024 words is in canonical form. -/
@[simp] theorem Memory.wf_ofWords (w : Words) : Memory.wf (Memory.ofWords w) = true := by
  rw [Memory.ofWords_eq]
  exact Memory.wf_ofFn 1024 0 (fun i => (w[i]?).getD 0) (by decide)

/-- A table made of 1024 words is complete. -/
theorem Memory.complete_ofWords (w : Words) : Memory.Complete (Memory.ofWords w) := by
  intro j
  have h : j.toNat < 1024 := j.isLt
  simp [h]

/-- A complete table holds 1024 words. -/
theorem Memory.complete_iff_holdsWords (t : Table) : Memory.Complete t ↔ ∃ T : Nat → Word, ∀ k, k < 1024 → Memory.read t k = some (T k) := by
  constructor
  · intro h
    refine ⟨fun k => (Memory.read t k).getD 0, fun k hk => ?_⟩
    have := h (BitVec.ofNat 10 k)
    rw [BitVec.toNat_ofNat, Nat.mod_eq_of_lt hk] at this
    obtain ⟨v, hv⟩ := Option.isSome_iff_exists.mp this
    simp [hv]
  · rintro ⟨T, hT⟩ j
    simp [hT j.toNat j.isLt]

end Sys2Proof.Machine
end

