-- ==== Sys2Proof/Laws/Generate.lean ====
section
/-! SUPPORT. What a generator step does: the monadic lines of R195 give the words of the plain reading in Safety.lean, and
everything `State.genStep` and `Gen.genStep` can do. -/

namespace Sys2Proof.Machine

theorem back_zero_ne {j : Nat} (k : Nat) (hj : j < 1024) (hk : 0 < k) (hk' : k < 1024) : back j k ≠ j := by
  unfold back; omega

/-- `g` over entries that all hold a value (R126). -/
theorem g_of_reads {m : Type → Type} [Monad m] [LawfulMonad m] (x y : Word) (B : Index → m Word) (TB : Nat → Word)
    (hB : ∀ i, B i = pure (TB i.toNat)) :
    g x y B = pure ((rotr x 10 ^^^ rotr y 23) + TB ((x ^^^ y).toNat % 1024)) := by
  simp [g, hB, gIndex_toNat]

/-- `h` over entries that all hold a value (R127). -/
theorem h_of_reads {m : Type → Type} [Monad m] [LawfulMonad m] (z : Word) (B : Index → m Word) (TB : Nat → Word)
    (hB : ∀ i, B i = pure (TB i.toNat)) : h z B = pure (stepH TB z) := by
  have hz : z.toNat / 2 ^ 24 % 256 = z.toNat / 2 ^ 24 := Nat.mod_eq_of_lt (by have := z.isLt; omega)
  simp only [h, hB, pure_bind, hIndex_toNat, stepH, add32_eq]
  norm_num at hz ⊢
  rw [Nat.mod_eq_of_lt hz]

/-- Lines 3 to 10 of GENSTEP over entries that all hold a value (R195). -/
theorem generate_of_reads {m : Type → Type} [Monad m] [LawfulMonad m] (A B : Index → m Word) (TA TB : Nat → Word)
    (hA : ∀ i, A i = pure (TA i.toNat)) (hB : ∀ i, B i = pure (TB i.toNat)) (j : Index) :
    generate A B j = pure (stepNew TA TB j.toNat, stepWord TA TB j.toNat) := by
  have hne : sub1024 j 12 ≠ j := by
    intro h
    have := congrArg BitVec.toNat h
    rw [sub1024_toNat] at this
    exact back_zero_ne _ j.isLt (by decide) (by decide) this
  simp only [generate, hA, pure_bind, g_of_reads _ _ B TB hB, h_of_reads _ B TB hB, if_neg hne, sub1024_toNat,
    add32_eq]
  rfl

/-- A P-active step of the state, all entries written (R193). -/
theorem State.genStep_p {s : State} {P Q : Nat → Word} (hc : s.ctr.toNat < 1024) (hP : HoldsWords s.p P)
    (hQ : HoldsWords s.q Q) :
    s.genStep = .ok (stepWord P Q s.ctr.toNat,
      { s with p := Memory.write s.p s.ctr.toNat (stepNew P Q s.ctr.toNat), ctr := nextCounter s.ctr }) := by
  have hA : ∀ i : Index, s.readEntry .p i = pure (P i.toNat) := fun i => by
    simp [State.readEntry, hP i.toNat i.isLt]; rfl
  have hB : ∀ i : Index, s.readEntry .q i = pure (Q i.toNat) := fun i => by
    simp [State.readEntry, hQ i.toNat i.isLt]; rfl
  have hj : (writeIndex s.ctr).toNat = s.ctr.toNat := by rw [writeIndex_toNat, Nat.mod_eq_of_lt hc]
  simp only [State.genStep, activeTable_eq, if_pos hc, TableName.other, generate_of_reads _ _ P Q hA hB, pure_bind, hj,
    State.writeEntry]
  rfl

/-- A Q-active step of the state, all entries written (R194). -/
theorem State.genStep_q {s : State} {P Q : Nat → Word} (hc : 1024 ≤ s.ctr.toNat) (hP : HoldsWords s.p P)
    (hQ : HoldsWords s.q Q) :
    s.genStep = .ok (stepWord Q P (s.ctr.toNat - 1024),
      { s with q := Memory.write s.q (s.ctr.toNat - 1024) (stepNew Q P (s.ctr.toNat - 1024)),
               ctr := nextCounter s.ctr }) := by
  have hA : ∀ i : Index, s.readEntry .q i = pure (Q i.toNat) := fun i => by
    simp [State.readEntry, hQ i.toNat i.isLt]; rfl
  have hB : ∀ i : Index, s.readEntry .p i = pure (P i.toNat) := fun i => by
    simp [State.readEntry, hP i.toNat i.isLt]; rfl
  have hj : (writeIndex s.ctr).toNat = s.ctr.toNat - 1024 := by
    have := s.ctr.isLt
    rw [writeIndex_toNat]; omega
  simp only [State.genStep, activeTable_eq, if_neg (Nat.not_lt.mpr hc), TableName.other,
    generate_of_reads _ _ Q P hA hB, pure_bind, hj, State.writeEntry]
  rfl

/-- Everything a generator step of the state can do, when it gives a word: one entry of the active table is written, the
counter advances, nothing else changes. -/
theorem State.genStep_cases {s t : State} {ks : Word} (h : s.genStep = .ok (ks, t)) :
    ∃ w : Word, t = { s.writeEntry (activeTable s.ctr) (writeIndex s.ctr) w with ctr := nextCounter s.ctr } := by
  unfold State.genStep at h
  cases hg : generate (s.readEntry (activeTable s.ctr)) (s.readEntry (activeTable s.ctr).other) (writeIndex s.ctr) with
  | error f => simp [hg, bind, Except.bind] at h
  | ok r =>
    simp only [hg, bind, Except.bind, pure, Except.pure, Except.ok.injEq, Prod.mk.injEq] at h
    exact ⟨r.1, h.2.symm⟩

/-- A generator step of a state whose tables are complete gives a word. -/
theorem State.genStep_of_complete {s : State} (hp : Memory.Complete s.p) (hq : Memory.Complete s.q) :
    ∃ ks t, s.genStep = .ok (ks, t) := by
  obtain ⟨P, hP⟩ := (Memory.complete_iff_holdsWords _).mp hp
  obtain ⟨Q, hQ⟩ := (Memory.complete_iff_holdsWords _).mp hq
  by_cases hc : s.ctr.toNat < 1024
  · exact ⟨_, _, State.genStep_p hc hP hQ⟩
  · exact ⟨_, _, State.genStep_q (Nat.le_of_not_lt hc) hP hQ⟩

/-- A step that reads only the tables and the counter gives the same word in a state that agrees on them, and makes the
same change (R200). -/
theorem State.genStep_congr {s s' t : State} {ks : Word} (hp : s'.p = s.p) (hq : s'.q = s.q) (hc : s'.ctr = s.ctr)
    (h : s.genStep = .ok (ks, t)) : s'.genStep = .ok (ks, { s' with p := t.p, q := t.q, ctr := t.ctr }) := by
  have htab : ∀ n, s'.table n = s.table n := by intro n; cases n <;> assumption
  have hrd : ∀ n, s'.readEntry n = s.readEntry n := by
    intro n; funext i; simp [State.readEntry, htab]
  unfold State.genStep at h ⊢
  simp only [hc, hrd]
  cases hg : generate (s.readEntry (activeTable s.ctr)) (s.readEntry (activeTable s.ctr).other) (writeIndex s.ctr) with
  | error f => simp [hg, bind, Except.bind] at h
  | ok r =>
    simp only [hg, bind, Except.bind, pure, Except.pure, Except.ok.injEq, Prod.mk.injEq] at h ⊢
    obtain ⟨hks, ht⟩ := h
    subst ht
    refine ⟨hks, ?_⟩
    cases activeTable s.ctr <;> simp [State.writeEntry, hp, hq]

end Sys2Proof.Machine
end

