-- ==== Sys2Proof/Laws/Exec.lean ====
section
/-! SUPPORT. Everything one instruction, one command word and one clock edge can do, said once each. -/

namespace Sys2Proof.Machine

/-- The outcomes of an instruction that answers a next state: it was refused, or it took its own effect. -/
inductive Effect (s t : State) : Instr → Prop where
  | refused (i : Instr) (e : Status) (he : e ≠ .ok) (ht : t = s.refuse e) : Effect s t i
  | new (ht : t = s.clear.answer 0#32) : Effect s t .new
  | keyb (b : Byte) (hr : s.rdy = false) (ht : t = (s.pushKey b).answer 0#32) : Effect s t (.keyb b)
  | ivb (b : Byte) (hr : s.rdy = false) (ht : t = (s.pushIv b).answer 0#32) : Effect s t (.ivb b)
  | init (m : Mode) (hr : s.rdy = false)
      (ht : t = (s.create m).respond (Config.initWait s.served s.key s.iv) ⟨.ok, 0#4, 0#32⟩) : Effect s t (.init m)
  | xor (n : BitVec 4) (d ks : Word) (u : State) (hn : countLegal n = true) (hr : s.rdy = true)
      (hg : s.genStep = .ok (ks, u))
      (ht : t = u.respond (Config.xorWait s.served d s.p s.q) ⟨.ok, n, xorLanes n d ks⟩) : Effect s t (.xor n d)
  | stat (ht : t = s.answer s.statw) : Effect s t .stat

/-- Everything `exec` can do when it answers a next state. -/
theorem exec_cases {i : Instr} {s t : State} (hx : exec i s = .next t) : Effect s t i := by
  cases i with
  | new => simp only [exec, execNew, Host.Outcome.next.injEq] at hx; exact .new hx.symm
  | keyb b =>
    simp only [exec, execKeyb] at hx
    split at hx <;> simp only [Host.Outcome.next.injEq] at hx
    · exact .refused _ .errSeq (by decide) hx.symm
    · exact .keyb b (by simp_all) hx.symm
  | ivb b =>
    simp only [exec, execIvb] at hx
    split at hx <;> simp only [Host.Outcome.next.injEq] at hx
    · exact .refused _ .errSeq (by decide) hx.symm
    · exact .ivb b (by simp_all) hx.symm
  | init m =>
    simp only [exec, execInit] at hx
    split at hx <;> simp only [Host.Outcome.next.injEq] at hx
    · exact .refused _ .errSeq (by decide) hx.symm
    · exact .init m (by simp_all) hx.symm
  | xor n d =>
    simp only [exec, execXor] at hx
    split at hx
    · split at hx
      · split at hx
        · simp only [Host.Outcome.next.injEq] at hx
          exact .xor n d _ _ ‹_› ‹_› ‹_› hx.symm
        · cases hx
      · simp only [Host.Outcome.next.injEq] at hx
        exact .refused _ .errSeq (by decide) hx.symm
    · simp only [Host.Outcome.next.injEq] at hx
      exact .refused _ .errArg (by decide) hx.symm
  | stat => simp only [exec, execStat, Host.Outcome.next.injEq] at hx; exact .stat hx.symm
  | reserved0 x =>
    simp only [exec, execReserved0, Host.Outcome.next.injEq] at hx
    exact .refused _ .errOp (by decide) hx.symm
  | reserved7 x =>
    simp only [exec, execReserved7, Host.Outcome.next.injEq] at hx
    exact .refused _ .errOp (by decide) hx.symm
  | reserved8F x =>
    simp only [exec, execReserved8F, Host.Outcome.next.injEq] at hx
    exact .refused _ .errOp (by decide) hx.symm

/-- No instruction stops at a refusal of the model. -/
theorem exec_ne_refused (i : Instr) (s : State) (r : Refusal) : exec i s ≠ .refused r := by
  cases i <;> simp only [exec, execNew, execKeyb, execIvb, execInit, execXor, execStat, execReserved0, execReserved7,
    execReserved8F] <;> (try split) <;> (try split) <;> (try split) <;> simp

/-- The only instruction that can stop at a fault is `XOR`, in a live engine, and only where its generator step reads an
entry nothing has written (R40). -/
theorem exec_eq_fault {i : Instr} {s : State} {f : Fault} (hx : exec i s = .fault f) :
    s.rdy = true ∧ s.genStep = .error f := by
  cases i <;> simp only [exec, execNew, execKeyb, execIvb, execInit, execXor, execStat, execReserved0, execReserved7,
    execReserved8F] at hx <;> (try split at hx) <;> (try split at hx) <;> (try split at hx) <;>
    first | (cases hx; done) | (cases hx; exact ⟨‹_›, ‹_›⟩)

/-- An `XOR` with a legal count in a live engine whose generator step gives a word (R210). -/
theorem exec_xor_of_step {n : BitVec 4} {d ks : Word} {s u : State} (hn : countLegal n = true) (hr : s.rdy = true)
    (hg : s.genStep = .ok (ks, u)) :
    exec (.xor n d) s = .next (u.respond (Config.xorWait s.served d s.p s.q) ⟨.ok, n, xorLanes n d ks⟩) := by
  simp only [exec, execXor, hn, hr, hg, if_true]

/-- Everything an accepted command word can do when it is answered. -/
theorem perform_cases {cw : PortWord} {s t : State} (hx : perform cw s = .next t) :
    (∃ i, decode cw = .ok i ∧ Effect s t i) ∨ (∃ r, decode cw = .error r ∧ t = s.refuse .errArg) := by
  unfold perform at hx
  split at hx
  · exact .inl ⟨_, ‹_›, exec_cases hx⟩
  · exact .inr ⟨_, ‹_›, by simpa using hx.symm⟩

theorem perform_ne_refused (cw : PortWord) (s : State) (r : Refusal) : perform cw s ≠ .refused r := by
  unfold perform
  split
  · exact exec_ne_refused _ _ _
  · simp

theorem perform_eq_fault {cw : PortWord} {s : State} {f : Fault} (hx : perform cw s = .fault f) :
    s.rdy = true ∧ s.genStep = .error f := by
  unfold perform at hx
  split at hx
  · exact exec_eq_fault hx
  · cases hx

/-- A command word is answered in a state whose tables are complete whenever it is live (R98, R41(c)). -/
theorem perform_answers {s : State} (cw : PortWord)
    (hc : s.rdy = true → Memory.Complete s.p ∧ Memory.Complete s.q) : ∃ t, perform cw s = .next t := by
  cases hp : perform cw s with
  | next t => exact ⟨t, rfl⟩
  | fault f =>
    obtain ⟨hr, hg⟩ := perform_eq_fault hp
    obtain ⟨ks, t, h⟩ := State.genStep_of_complete (hc hr).1 (hc hr).2
    rw [hg] at h; cases h
  | refused r => exact absurd hp (perform_ne_refused _ _ _)

/-- Every command word that is answered leaves one response in flight and does not touch what belongs to the host. -/
theorem perform_answered {cw : PortWord} {s t : State} (hx : perform cw s = .next t) : ∃ rsp, s.Answered t rsp := by
  obtain ⟨i, -, he⟩ | ⟨r, -, rfl⟩ := perform_cases hx
  · cases he with
    | refused _ e he ht => subst ht; exact ⟨_, rfl, rfl, rfl⟩
    | new ht => subst ht; exact ⟨_, rfl, rfl, rfl⟩
    | keyb b hr ht => subst ht; exact ⟨_, rfl, by simp, by simp⟩
    | ivb b hr ht => subst ht; exact ⟨_, rfl, by simp, by simp⟩
    | init m hr ht => subst ht; exact ⟨_, State.respond_pending _ _ _, by simp, by simp⟩
    | xor n d ks u hn hr hg ht =>
      subst ht
      obtain ⟨w, rfl⟩ := State.genStep_cases hg
      exact ⟨_, rfl, by simp, by simp⟩
    | stat ht => subst ht; exact ⟨_, rfl, rfl, rfl⟩
  · exact ⟨_, rfl, rfl, rfl⟩

/-- Everything one clock edge can do when it answers a next state. -/
theorem clockEdge_cases {e : Pins} {s t : State} (hx : clockEdge e s = .next t) :
    (e.rst = true ∧ t = s.resetEdge) ∨
    (e.rst = false ∧ s.port = .ready ∧ e.cmdValid = false ∧ t = s) ∨
    (e.rst = false ∧ s.port = .ready ∧ e.cmdValid = true ∧ perform e.cmdWord s = .next t) ∨
    (∃ rsp, e.rst = false ∧ s.port = .inFlight 0 rsp ∧ e.rspReady = false ∧ t = s) ∨
    (∃ rsp, e.rst = false ∧ s.port = .inFlight 0 rsp ∧ e.rspReady = true ∧ t = s.deliver) ∨
    (∃ wait rsp, e.rst = false ∧ s.port = .inFlight (wait + 1) rsp ∧ t = { s with port := .inFlight wait rsp }) := by
  unfold clockEdge at hx
  split at hx
  · simp_all
  · split at hx
    · split at hx <;> simp_all
    · split at hx <;> simp_all
    · simp_all

/-- Everything one step can do when it answers a next state. -/
theorem step_cases {s t : State} (hx : step s = .next t) :
    (s.edgePins.rst = true ∧ t = s.dropEdge.resetEdge) ∨
    (s.edgePins.rst = false ∧ s.port = .ready ∧ s.edgePins.cmdValid = false ∧ t = s.dropEdge) ∨
    (s.edgePins.rst = false ∧ s.port = .ready ∧ s.edgePins.cmdValid = true ∧
      perform s.edgePins.cmdWord s.dropEdge = .next t) ∨
    (∃ rsp, s.edgePins.rst = false ∧ s.port = .inFlight 0 rsp ∧ s.edgePins.rspReady = false ∧ t = s.dropEdge) ∨
    (∃ rsp, s.edgePins.rst = false ∧ s.port = .inFlight 0 rsp ∧ s.edgePins.rspReady = true ∧
      t = s.dropEdge.deliver) ∨
    (∃ wait rsp, s.edgePins.rst = false ∧ s.port = .inFlight (wait + 1) rsp ∧
      t = { s.dropEdge with port := .inFlight wait rsp }) :=
  clockEdge_cases hx

/-- A sequence of command words is its first words and then the rest. -/
theorem serveAll_append (xs ys : List PortWord) (s : State) :
    serveAll (xs ++ ys) s =
      match serveAll xs s with
      | .next t => serveAll ys t
      | .fault f => .fault f
      | .refused r => .refused r := by
  induction xs generalizing s with
  | nil => rfl
  | cons x xs ih =>
    simp only [List.cons_append, serveAll]
    cases serve x s <;> simp [ih]

/-- A sequence that ends in a next state, and what follows it. -/
theorem serveAll_append_next {xs ys : List PortWord} {s t : State} (hx : serveAll xs s = .next t) :
    serveAll (xs ++ ys) s = serveAll ys t := by
  rw [serveAll_append, hx]

end Sys2Proof.Machine
end

