-- ==== Sys2Proof/Laws/Expand.lean ====
section
/-! SUPPORT. What `INIT` computes: the expansion buffer meets its recurrence, each warm-up step is the step of the plain
reading in Safety.lean, and the tables it leaves are complete. -/

namespace Sys2Proof.Machine

/-! ### The expansion (R171, R172) -/

/-- A word of the buffer stays when the buffer grows. -/
theorem expand_getElem (sd : Vector Word 16) (k m i : Nat) (hi : i < 16 + k) :
    (expand sd (k + m))[i]'(by omega) = (expand sd k)[i] := by
  induction m with
  | zero => rfl
  | succ m ih =>
    rw [← ih]
    show ((expand sd (k + m)).push _)[i]'_ = _
    rw [Vector.getElem_push, dif_pos (by omega)]

/-- The word an expansion step adds (R172). -/
theorem expand_last (sd : Vector Word 16) (k : Nat) :
    (expand sd (k + 1))[16 + k]'(by omega) = expStep (expand sd k) := by
  show ((expand sd k).push _)[16 + k]'_ = _
  rw [Vector.getElem_push, dif_neg (by omega)]

/-- Word `i` of the expansion buffer, as a function of a number. -/
def expansionWord (key iv : Buffer) (i : Nat) : Word := if hi : i < 2560 then (expansion key iv)[i] else 0

theorem expansionWord_eq (key iv : Buffer) (k i : Nat) (hk : k ≤ 2544) (hi : i < 16 + k) :
    expansionWord key iv i = (expand (seed key iv) k)[i] := by
  obtain ⟨m, hm⟩ : ∃ m, 2544 = k + m := ⟨2544 - k, by omega⟩
  have hall : ∀ N (hN : N = k + m), (expand (seed key iv) N)[i]'(by omega) = (expand (seed key iv) k)[i] := by
    intro N hN
    subst hN
    exact expand_getElem _ _ _ _ hi
  rw [expansionWord, dif_pos (by omega)]
  exact hall 2544 hm

/-- The expansion buffer of the model is the expansion buffer of R171 and R172. -/
theorem expansion_isExpansion (key iv : Buffer) : IsExpansion key iv (expansionWord key iv) where
  keyWords i := by
    have := i.isLt
    rw [expansionWord_eq key iv 0 i.val (by omega) (by omega)]
    show (seed key iv)[i.val] = _
    rw [seed, Vector.getElem_append_left (by omega)]
    simp [bufferWord]
  ivWords i := by
    have := i.isLt
    rw [expansionWord_eq key iv 0 (8 + i.val) (by omega) (by omega)]
    show (seed key iv)[8 + i.val] = _
    rw [seed, Vector.getElem_append_right (by omega) (by omega)]
    simp [bufferWord]
  recurrence i h16 hi := by
    obtain ⟨k, rfl⟩ : ∃ k, i = 16 + k := ⟨i - 16, by omega⟩
    rw [expansionWord_eq key iv (k + 1) (16 + k) (by omega) (by omega), expand_last,
      expansionWord_eq key iv k _ (by omega) (show 16 + k - 16 < 16 + k by omega),
      expansionWord_eq key iv k _ (by omega) (show 16 + k - 15 < 16 + k by omega),
      expansionWord_eq key iv k _ (by omega) (show 16 + k - 7 < 16 + k by omega),
      expansionWord_eq key iv k _ (by omega) (show 16 + k - 2 < 16 + k by omega)]
    simp only [expStep, add32_eq]
    congr 6 <;> omega

/-! ### The warm-up (R175) -/

/-- A table inside `INIT` as a function of a number. -/
def Words.fn (w : Words) (j : Nat) : Word := (w[j]?).getD 0

theorem Words.fn_set (w : Words) (j : Index) (v : Word) :
    Words.fn (w.set j.toNat v) = fun k => if k = j.toNat then v else Words.fn w k := by
  funext k
  have := j.isLt
  unfold Words.fn
  rw [Vector.getElem?_set]
  by_cases h : j.toNat = k
  · simp [h]
  · simp [h, Ne.symm h]

/-- The counter after a generator step inside `INIT`. -/
@[simp] theorem Gen.genStep_ctr (s : Gen) : s.genStep.2.ctr = nextCounter s.ctr := rfl

/-- Everything a generator step inside `INIT` does to the tables (R193, R194). -/
theorem Gen.genStep_stepsTo (s : Gen) :
    StepsTo s.ctr.toNat (Words.fn s.p) (Words.fn s.q) (Words.fn s.genStep.2.p) (Words.fn s.genStep.2.q) := by
  have hlt := s.ctr.isLt
  have hp : ∀ i : Index, s.readEntry .p i = (pure (Words.fn s.p i.toNat) : Id Word) := fun i => by
    have := i.isLt
    simp [Gen.readEntry, Words.fn, this]; rfl
  have hq : ∀ i : Index, s.readEntry .q i = (pure (Words.fn s.q i.toNat) : Id Word) := fun i => by
    have := i.isLt
    simp [Gen.readEntry, Words.fn, this]; rfl
  unfold StepsTo Gen.genStep
  by_cases hc : s.ctr.toNat < 1024
  · have hj : (writeIndex s.ctr).toNat = s.ctr.toNat := by rw [writeIndex_toNat, Nat.mod_eq_of_lt hc]
    have hg := generate_of_reads (m := Id) (s.readEntry .p) (s.readEntry .q) _ _ hp hq (writeIndex s.ctr)
    simp only [activeTable_eq, if_pos hc, TableName.other]
    rw [hg]
    refine ⟨?_, rfl⟩
    show Words.fn (s.p.set (writeIndex s.ctr).toNat _) = _
    rw [Words.fn_set, hj]
    rfl
  · have hj : (writeIndex s.ctr).toNat = s.ctr.toNat - 1024 := by rw [writeIndex_toNat]; omega
    have hg := generate_of_reads (m := Id) (s.readEntry .q) (s.readEntry .p) _ _ hq hp (writeIndex s.ctr)
    simp only [activeTable_eq, if_neg hc, TableName.other]
    rw [hg]
    refine ⟨rfl, ?_⟩
    show Words.fn (s.q.set (writeIndex s.ctr).toNat _) = _
    rw [Words.fn_set, hj]
    rfl

/-- The states of a warm-up: after `c` steps from `s`. -/
def Gen.after (s : Gen) : Nat → Gen
  | 0 => s
  | c + 1 => (s.after c).genStep.2

theorem Gen.after_genStep (s : Gen) (c : Nat) : (s.genStep.2).after c = s.after (c + 1) := by
  induction c with
  | zero => rfl
  | succ c ih => rw [Gen.after, ih]; rfl

theorem warmUp_eq_after (c : Nat) (s : Gen) : warmUp c s = s.after c := by
  induction c generalizing s with
  | zero => rfl
  | succ c ih => rw [warmUp, ih, Gen.after_genStep]

/-- The counter after `c` steps (R197). -/
theorem Gen.after_ctr (s : Gen) (c : Nat) : (s.after c).ctr.toNat = (s.ctr.toNat + c) % 2048 := by
  have := s.ctr.isLt
  induction c with
  | zero => rw [Gen.after]; omega
  | succ c ih => rw [Gen.after, Gen.genStep_ctr, nextCounter_toNat, ih]; omega

/-- The instance of a key and an IV is the slices of the expansion after 4096 steps (R173 to R175). -/
theorem instanceOf_eq (key iv : Buffer) : instanceOf key iv = (slice (expansion key iv)).after Config.warmUpSteps := by
  unfold instanceOf
  exact warmUp_eq_after Config.warmUpSteps (slice (expansion key iv))

/-- The words of the slice that becomes `P` (R173). -/
theorem slice_p_word (W : Vector Word 2560) (j : Nat) (hj : j < 1024) : Words.fn (slice W).p j = W[512 + j] := by
  simp [Words.fn, slice, hj]

/-- The words of the slice that becomes `Q` (R173). -/
theorem slice_q_word (W : Vector Word 2560) (j : Nat) (hj : j < 1024) : Words.fn (slice W).q j = W[1536 + j] := by
  simp [Words.fn, slice, hj]

/-- An entry of the expansion buffer below 2560. -/
theorem expansionWord_of_lt (key iv : Buffer) (i : Nat) (hi : i < 2560) :
    expansionWord key iv i = (expansion key iv)[i] := by
  rw [expansionWord, dif_pos hi]

/-- Step `c` of a warm-up that starts at counter 0 is a generator step at counter `c mod 2048` (R175, R194). -/
theorem Gen.after_stepsTo (s : Gen) (c : Nat) (h0 : s.ctr.toNat = 0) :
    StepsTo (c % 2048) (Words.fn (s.after c).p) (Words.fn (s.after c).q) (Words.fn (s.after (c + 1)).p)
      (Words.fn (s.after (c + 1)).q) := by
  have := Gen.genStep_stepsTo (s.after c)
  rw [Gen.after_ctr, h0, Nat.zero_add] at this
  exact this

/-- The instance after `n` warm-up steps, for the one `n` there is (R175). Stated with a variable so that no proof counts
to 4096. -/
theorem instanceOf_words (key iv : Buffer) (n : Nat) (hn : n = Config.warmUpSteps) :
    Words.fn (instanceOf key iv).p = Words.fn ((slice (expansion key iv)).after n).p ∧
      Words.fn (instanceOf key iv).q = Words.fn ((slice (expansion key iv)).after n).q := by
  subst hn
  rw [instanceOf_eq]
  exact ⟨rfl, rfl⟩

/-- What steps 1 to 5 of `INIT` make is the instance of the key and the IV (R170 to R175). -/
theorem instanceOf_isInstance (key iv : Buffer) :
    IsInstance key iv (Words.fn (instanceOf key iv).p) (Words.fn (instanceOf key iv).q) := by
  refine ⟨expansionWord key iv, fun c => Words.fn ((slice (expansion key iv)).after c).p,
    fun c => Words.fn ((slice (expansion key iv)).after c).q, expansion_isExpansion key iv, ?_, ?_, ?_, ?_⟩
  · intro j hj
    constructor
    · rw [expansionWord_of_lt _ _ _ (by omega)]; exact slice_p_word _ j hj
    · rw [expansionWord_of_lt _ _ _ (by omega)]; exact slice_q_word _ j hj
  · intro c hc
    exact Gen.after_stepsTo _ c (by simp [slice])
  · exact (instanceOf_words key iv 4096 rfl).1
  · exact (instanceOf_words key iv 4096 rfl).2

/-- The counter of a fresh instance is 0 (R174, R176). -/
@[simp] theorem instanceOf_ctr (key iv : Buffer) : (instanceOf key iv).ctr = 0 := by
  apply BitVec.eq_of_toNat_eq
  rw [instanceOf_eq, Gen.after_ctr]
  simp [slice, Config.warmUpSteps]

/-- After `INIT` both tables are complete (R173, R41(c)) and in canonical form. -/
theorem State.create_complete (s : State) (m : Mode) :
    Memory.Complete (s.create m).p ∧ Memory.Complete (s.create m).q := by
  rw [State.create_p, State.create_q]
  exact ⟨Memory.complete_ofWords _, Memory.complete_ofWords _⟩

/-- A table made of words holds them. -/
theorem holdsWords_ofWords (w : Words) : HoldsWords (Memory.ofWords w) (Words.fn w) := by
  intro k hk
  rw [Memory.read_ofWords, Words.fn]
  simp [hk]

end Sys2Proof.Machine
end

