-- ==== Sys2Proof/Laws/PerInstr.lean ====
section
/-! SUPPORT. One lemma per instruction: its word lies in its row of spec/opcode_table.json (the row's mask and match, written
out here from the table). -/

namespace Sys2Proof.Laws.EncodeFitsRow

/-- The mask of an instruction's row. -/
def rowMask : Instr → PortWord
  | .new => 0xFFFFFFFFFF#40
  | .keyb _ => 0xFFFFFFFF00#40
  | .ivb _ => 0xFFFFFFFF00#40
  | .init _ => 0xFFFFFFFFFE#40
  | .xor _ _ => 0xF000000000#40
  | .stat => 0xFFFFFFFFFF#40
  | .reserved0 _ => 0xF000000000#40
  | .reserved7 _ => 0xF000000000#40
  | .reserved8F _ => 0x8000000000#40

/-- The match of an instruction's row. -/
def rowMatch : Instr → PortWord
  | .new => 0x1000000000#40
  | .keyb _ => 0x2000000000#40
  | .ivb _ => 0x3000000000#40
  | .init _ => 0x4000000000#40
  | .xor _ _ => 0x5000000000#40
  | .stat => 0x6000000000#40
  | .reserved0 _ => 0x0000000000#40
  | .reserved7 _ => 0x7000000000#40
  | .reserved8F _ => 0x8000000000#40

/-- The word of an instruction fits its row (R95, R98). -/
def Statement (i : Instr) : Prop := encode i &&& rowMask i = rowMatch i

theorem new : Statement .new := by unfold Statement; decide

theorem keyb (b : Byte) : Statement (.keyb b) := by
  apply BitVec.eq_of_getLsbD_eq
  intro k hk
  simp only [encode, rowMask, rowMatch, BitVec.getLsbD_and, BitVec.getLsbD_append]
  interval_cases k <;> simp

theorem ivb (b : Byte) : Statement (.ivb b) := by
  apply BitVec.eq_of_getLsbD_eq
  intro k hk
  simp only [encode, rowMask, rowMatch, BitVec.getLsbD_and, BitVec.getLsbD_append]
  interval_cases k <;> simp

theorem init (m : Mode) : Statement (.init m) := by cases m <;> (unfold Statement; decide)

theorem xor (n : BitVec 4) (d : Word) : Statement (.xor n d) := by
  apply BitVec.eq_of_getLsbD_eq
  intro k hk
  simp only [encode, rowMask, rowMatch, BitVec.getLsbD_and, BitVec.getLsbD_append]
  interval_cases k <;> simp

theorem stat : Statement .stat := by unfold Statement; decide

theorem reserved0 (x : BitVec 36) : Statement (.reserved0 x) := by
  apply BitVec.eq_of_getLsbD_eq
  intro k hk
  simp only [encode, rowMask, rowMatch, BitVec.getLsbD_and, BitVec.getLsbD_append]
  interval_cases k <;> simp

theorem reserved7 (x : BitVec 36) : Statement (.reserved7 x) := by
  apply BitVec.eq_of_getLsbD_eq
  intro k hk
  simp only [encode, rowMask, rowMatch, BitVec.getLsbD_and, BitVec.getLsbD_append]
  interval_cases k <;> simp

theorem reserved8F (x : BitVec 39) : Statement (.reserved8F x) := by
  apply BitVec.eq_of_getLsbD_eq
  intro k hk
  simp only [encode, rowMask, rowMatch, BitVec.getLsbD_and, BitVec.getLsbD_append]
  interval_cases k <;> simp

end Sys2Proof.Laws.EncodeFitsRow
end

