-- ==== Sys2Proof/Laws/Run.lean ====
section
/-! SUPPORT. Runs of the machine behind Host/Core.lean in terms of `step`, and agreement of engines as a relation. -/

namespace Sys2Proof.Machine

/-- A run of no steps. -/
theorem core_run_zero (s : State) : core.run 0 s = Host.Outcome.next s := rfl

/-- A run of any machine whose first step answers a next state. -/
theorem run_succ_of_next {M : Host.Core} {s t : M.State} (k : Nat) (hs : M.step s = .next t) :
    M.run (k + 1) s = M.run k t := by
  simp only [Host.Core.run, hs]

/-- A run of one step more of any machine that ends in a next state has a first step. -/
theorem run_succ_next_cases {M : Host.Core} {s t : M.State} {k : Nat} (hr : M.run (k + 1) s = .next t) :
    ∃ u, M.step s = .next u ∧ M.run k u = .next t := by
  cases hs : M.step s with
  | next u => exact ⟨u, rfl, by rw [← run_succ_of_next k hs]; exact hr⟩
  | fault f => simp [Host.Core.run, hs] at hr
  | refused r => simp [Host.Core.run, hs] at hr

/-- A run whose first step answers a next state. -/
theorem core_run_succ {s t : State} (k : Nat) (hs : step s = .next t) : core.run (k + 1) s = core.run k t :=
  run_succ_of_next (M := core) k hs

/-- A run of one step more that ends in a next state has a first step. -/
theorem core_run_succ_cases {s t : State} {k : Nat} (hr : core.run (k + 1) s = Host.Outcome.next t) :
    ∃ u, step s = .next u ∧ core.run k u = Host.Outcome.next t :=
  run_succ_next_cases (M := core) hr

theorem State.SameEngine.refl (s : State) : s.SameEngine s := by constructor <;> rfl

theorem State.SameEngine.symm {s t : State} (h : s.SameEngine t) : t.SameEngine s := by
  constructor <;> simp [h.key, h.iv, h.klen, h.ivlen, h.p, h.q, h.ctr, h.rdy, h.dir, h.err]

theorem State.SameEngine.trans {s t u : State} (h : s.SameEngine t) (h' : t.SameEngine u) : s.SameEngine u := by
  constructor <;> simp [h.key, h.iv, h.klen, h.ivlen, h.p, h.q, h.ctr, h.rdy, h.dir, h.err, h'.key, h'.iv, h'.klen,
    h'.ivlen, h'.p, h'.q, h'.ctr, h'.rdy, h'.dir, h'.err]

/-- An edge changes the pins only. -/
theorem State.sameEngine_dropEdge (s : State) : s.SameEngine s.dropEdge := by constructor <;> rfl

/-- Delivery changes the port and the host's side only. -/
theorem State.sameEngine_deliver (s : State) : s.SameEngine s.deliver := by constructor <;> simp

/-- Agreement with the engine of a state does not see the port. -/
theorem State.sameEngine_port (s : State) (p : Port) : s.SameEngine { s with port := p } := by constructor <;> rfl

end Sys2Proof.Machine
end

