-- ==== Sys2Proof/Tests/Slice0.lean ====
section
/-! SUPPORT. Tests whose expected values are the spec's own (the source of each stands in its docstring), and for every
statement with hypotheses a concrete state and operands that meet them together. -/

namespace Sys2Proof.Tests

open Sys2Proof.Machine

/-! ### Well-formedness -/

/-- R97, R101: a count of 0 or of 5 and more is refused by the check; 1 and 4 pass. -/
theorem test_wellFormed_xor_count : ¬ (Instr.xor 0 0).WellFormed ∧ ¬ (Instr.xor 5 0).WellFormed ∧
    ¬ (Instr.xor 15 0).WellFormed ∧ (Instr.xor 1 0).WellFormed ∧ (Instr.xor 4 0).WellFormed := by decide

/-! ### Decoding: a word of each row, bit by bit from spec/opcode_table.json -/

theorem test_decode_new : decode 0b0001000000000000000000000000000000000000#40 = .ok .new := by decide
theorem test_decode_keyb : decode 0b0010000000000000000000000000000010100101#40 = .ok (.keyb 0xA5#8) := by decide
theorem test_decode_ivb : decode 0b0011000000000000000000000000000000000001#40 = .ok (.ivb 0x01#8) := by decide
theorem test_decode_init : decode 0b0100000000000000000000000000000000000000#40 = .ok (.init .encrypt) ∧
    decode 0b0100000000000000000000000000000000000001#40 = .ok (.init .decrypt) := by decide
theorem test_decode_xor : decode 0b0101001110000000000000000000000000000001#40 = .ok (.xor 3#4 0x80000001#32) := by decide
theorem test_decode_stat : decode 0b0110000000000000000000000000000000000000#40 = .ok .stat := by decide
theorem test_decode_reserved0 : decode 0b0000100000000000000000000000000000000001#40 = .ok (.reserved0 0x800000001#36) := by
  decide
theorem test_decode_reserved7 : decode 0b0111000000000000000000000000000000000000#40 = .ok (.reserved7 0#36) := by decide
theorem test_decode_reserved8F : decode 0b1000000000000000000000000000000000000000#40 = .ok (.reserved8F 0#39) ∧
    decode 0b1111000000000000000000000000000000000000#40 = .ok (.reserved8F 0x7000000000#39) := by decide

/-- R97: an unused field that is not zero. -/
theorem test_decode_rejects : decode 0x1000000001#40 = .error .newField ∧ decode 0x2000000100#40 = .error .keybField ∧
    decode 0x3100000000#40 = .error .ivbField ∧ decode 0x4000000002#40 = .error .initField ∧
    decode 0x6F00000000#40 = .error .statField := by decide

/-- The encoder writes the same words (30_encoding.md, the table of R110). -/
theorem test_encode : encode .new = 0x1000000000#40 ∧ encode (.keyb 0x55#8) = 0x2000000055#40 ∧
    encode (.init .decrypt) = 0x4000000001#40 ∧ encode (.xor 4#4 0x6C6C6548#32) = 0x546C6C6548#40 := by decide

/-- The table numbering (log 9). -/
theorem test_decodeTableWord : decodeTableWord 40 0x546C6C6548 = some (.xor 4#4 0x6C6C6548#32) ∧
    decodeTableWord 40 0x2000000100 = none := by decide

/-! ### Functions: the selection of V6 and the lanes of V8 (95_test_vectors.md) -/

theorem test_rotr_shr : rotr 0x12345678#32 4 = 0x81234567#32 ∧ rotr 0x12345678#32 0 = 0x12345678#32 ∧
    shr 0xFFFFFFFF#32 10 = 0x003FFFFF#32 ∧ add32 0xFFFFFFFF#32 1 = 0#32 := by decide

theorem test_f1 : f1 0x00000010#32 = 0x20040002#32 ∧ f1 0xFFFFFFFF#32 = 0x1FFFFFFF#32 ∧
    f1 0x12345678#32 = 0xE7FCE6EE#32 := by decide

theorem test_f2 : f2 0x00000010#32 = 0x000A0000#32 ∧ f2 0x000A0012#32 = 0x400B4284#32 ∧
    f2 0x12345678#32 = 0xA1F78649#32 := by decide

/-- The table of V6: `T[k] = (k * 0x01000193 + 0x811C9DC5) mod 2^32`. -/
def v6Table (k : Index) : Word := k.setWidth 32 * 0x01000193#32 + 0x811C9DC5#32

theorem test_g : Id.run (g 0x12345678#32 0x9ABCDEF0#32 v6Table) = 0xF0D6DFFD#32 ∧
    Id.run (g 0xFFFFFFFF#32 0#32 v6Table) = 0x8022E831#32 := by decide

theorem test_h : Id.run (h 0x12345678#32 v6Table) = 0x187D9B90#32 ∧
    Id.run (h 0xFFFFFFFF#32 v6Table) = 0x00822EC8#32 := by decide

theorem test_sub1024 : sub1024 0 3 = 1021 ∧ sub1024 0 10 = 1014 ∧ sub1024 0 12 = 1012 ∧ sub1024 0 1023 = 1 ∧
    sub1024 1023 1023 = 0 := by decide

theorem test_bytes : le32 0x5B#8 0x07#8 0x89#8 0x85#8 = 0x8589075B#32 ∧ byteOf 0 0x8589075B#32 = 0x5B#8 := by decide

/-- V8: "Hell" with `s_0`, one byte with `s_1` (also with lanes above filled), three bytes with `s_2`. -/
theorem test_xorLanes : xorLanes 4 0x6C6C6548#32 0xFE4A401C#32 = 0x92262554#32 ∧
    xorLanes 1 0x0000006F#32 0xED5FE24F#32 = 0x00000020#32 ∧ xorLanes 1 0xAABBCC6F#32 0xED5FE24F#32 = 0x00000020#32 ∧
    xorLanes 3 0x00636261#32 0xD19A8F95#32 = 0x00F9EDF4#32 := by decide

/-! ### Instructions, one step each -/

/-- The next state of an outcome, for tests: the state before where there is none. -/
def after (s : State) (o : Host.Outcome State Fault Refusal) : State :=
  match o with
  | .next t => t
  | .fault _ => s
  | .refused _ => s

/-- 41_key_iv_load.md, example of `NEW`: after it `STAT` returns 0. -/
theorem test_new : (after State.reset (exec .new { State.reset with klen := 1, ivlen := 1, rdy := true })).statw = 0#32 := by
  decide

/-- 41_key_iv_load.md, example of `KEYB`: `KEY[0] = 0x55`, `KLEN = 1`, `K[0] = 0x00000055`. -/
theorem test_keyb : let t := after State.reset (step (State.reset.withFetchWord 40 0x2000000055))
    t.key[0] = 0x55#8 ∧ t.klen = 1 ∧ bufferWord t.key 0 = 0x00000055#32 ∧ t.pending.map Response.word = some 0#40 := by
  decide

/-- R154: the 33rd byte changes nothing and is answered `OK`. -/
theorem test_keyb_full : let t := after State.reset (exec (.keyb 0xFF#8) { State.reset with klen := 32 })
    t.klen = 32 ∧ t.key[31] = 0x00#8 ∧ t.pending.map Response.word = some 0#40 := by decide

/-- 41_key_iv_load.md, example of `IVB`: `IV[0] = 0x01`, `IVLEN = 1`, `V[0] = 0x00000001`. -/
theorem test_ivb : let t := after State.reset (step (State.reset.withFetchWord 40 0x3000000001))
    t.iv[0] = 0x01#8 ∧ t.ivlen = 1 ∧ bufferWord t.iv 0 = 0x00000001#32 := by decide

/-- R244: a live engine refuses `IVB` with `ERR_SEQ`, and `ERR` is set. -/
theorem test_ivb_live : let t := after State.reset (exec (.ivb 0x01#8) { State.reset with rdy := true })
    t.ivlen = 0 ∧ t.err = true ∧ t.pending.map Response.word = some 0x2000000000#40 := by decide

/-- V3: after `KEYB 0x00; IVB 0x00; INIT ENC` the status word is 0x00000411. -/
theorem test_init : let t := after State.reset (exec (.init .encrypt) { State.reset with klen := 1, ivlen := 1 })
    t.rdy = true ∧ t.dir = .encrypt ∧ t.klen = 1 ∧ t.pending.map Response.word = some 0#40 := by decide

/-- V2: the expansion words 16 to 24 of the zero key and IV. -/
theorem test_expansion : (expand (seed (Vector.replicate 32 0x00#8) (Vector.replicate 32 0x00#8)) 9).toList.drop 16 =
    [0x00000010#32, 0x00000011#32, 0x000A0012#32, 0x000AA013#32, 0x400B4298#32, 0x040BE2C1#32, 0xC90F2AEA#32,
      0x8D39A0A3#32, 0x701A7E95#32] := by decide

/-- V7, t = 0: the entries the step reads, as the spec gives them. -/
def v7First : State :=
  { State.reset with
    rdy := true, ctr := 0
    p := [(0, 0x3C8BBCCF#32), (1, 0x8D4FAEED#32), (1012, 0x3D4F92EE#32), (1014, 0xFFAB561D#32), (1021, 0x1E283131#32)]
    q := [(238, 0x547D793A#32), (402, 0xA6388628#32), (591, 0x3D727295#32), (829, 0xC7059E2D#32), (988, 0x6B55B37D#32)] }

/-- V7, t = 0: `XOR 4, 0` answers `0x048589075B` and writes `P[0] = 0x7AA7177F`. -/
theorem test_xor_p : let t := after State.reset (exec (.xor 4 0) v7First)
    t.pending.map Response.word = some 0x048589075B#40 ∧ Memory.read t.p 0 = some 0x7AA7177F#32 ∧ t.q = v7First.q ∧
      t.ctr = 1 := by decide

/-- V7, t = 2047: the last Q-active step. -/
def v7Last : State :=
  { State.reset with
    rdy := true, ctr := 2047
    p := [(139, 0x2436E609#32), (387, 0x9A29838B#32), (681, 0x53F3063D#32), (872, 0x211E07EC#32), (982, 0xA5F429BC#32)]
    q := [(0, 0xD6DD942D#32), (1011, 0xD6A9838B#32), (1013, 0xF597365C#32), (1020, 0xC1746745#32), (1023, 0x9553F385#32)] }

/-- V7, t = 2047: the word 0xAE26A10C, `Q[1023] = 0x16613881`, and the counter wraps to 0. -/
theorem test_xor_q : let t := after State.reset (exec (.xor 4 0) v7Last)
    t.pending.map Response.word = some 0x04AE26A10C#40 ∧ Memory.read t.q 1023 = some 0x16613881#32 ∧ t.p = v7Last.p ∧
      t.ctr = 0 := by decide

/-- 45_status.md, examples: with `KLEN = 1`, `IVLEN = 1` and no instance the answer is `0x0000000410`. -/
theorem test_stat : (after State.reset (exec .stat { State.reset with klen := 1, ivlen := 1 })).pending.map Response.word =
    some 0x0000000410#40 := by decide

/-- R242: the reserved rows answer `ERR_OP`. -/
theorem test_reserved :
    (after State.reset (exec (.reserved0 0) State.reset)).pending.map Response.word = some 0x1000000000#40 ∧
    (after State.reset (exec (.reserved7 0) State.reset)).pending.map Response.word = some 0x1000000000#40 ∧
    (after State.reset (exec (.reserved8F 0) State.reset)).pending.map Response.word = some 0x1000000000#40 := by decide

/-- R245: `ERR_ARG` stands before `ERR_SEQ`. -/
theorem test_xor_priority :
    (after State.reset (exec (.xor 0 0) State.reset)).pending.map Response.word = some 0x3000000000#40 := by decide

/-- R110: the text forms. -/
theorem test_text : instrText (.xor 4#4 0x6C6C6548#32) = "XOR 4, 0x6C6C6548" ∧ instrText (.keyb 0x55#8) = "KEYB 0x55" ∧
    Response.text ⟨.ok, 4#4, 0x8589075B#32⟩ = "OK:4:0x8589075B" := by decide

/-- V8, R216: five bytes are two commands, the second with one byte. -/
theorem test_transformWords : transformWords [0x48#8, 0x65#8, 0x6C#8, 0x6C#8, 0x6F#8] = [0x546C6C6548#40, 0x510000006F#40] := by
  decide

/-! ### Witnesses: states and operands that meet the hypotheses of the statements, all of a statement's together -/

/-- A table with every entry 0. -/
def zeroTable : Table := Memory.ofWords (Vector.replicate 1024 0#32)

/-- A live engine with zero tables at a counter. -/
def live (c : BitVec 11) : State := { State.reset with rdy := true, ctr := c, p := zeroTable, q := zeroTable }

/-- A state in which a command has a response `wait` edges away. -/
def busy (wait : Nat) : State := { State.reset with port := .inFlight wait ⟨.ok, 0#4, 0#32⟩ }

/-- The reset state with inputs on the next edge. -/
def withEdge (s : State) (rst cmdValid : Bool) (cw : PortWord) (rspReady : Bool) : State :=
  { s with pins := [⟨rst, cmdValid, cw, rspReady⟩] }

/-- The words of the zero table. -/
theorem zeroTable_holds : HoldsWords zeroTable fun _ => 0#32 := by
  intro k hk
  rw [zeroTable, Memory.read_ofWords]
  simp [hk]

theorem live_inv (c : BitVec 11) : (live c).Inv where
  klen_le := Nat.zero_le 32
  ivlen_le := Nat.zero_le 32
  key_zero k _ := by simp [live, State.reset]
  iv_zero k _ := by simp [live, State.reset]
  live_complete _ := ⟨Memory.complete_ofWords _, Memory.complete_ofWords _⟩
  empty_clear hr := by cases hr
  p_wf := Memory.wf_ofWords _
  q_wf := Memory.wf_ofWords _

/-- A live engine answers `XOR` with a legal count. -/
theorem live_xor (c : BitVec 11) (n : BitVec 4) (d : Word) (hn : countLegal n = true) :
    ∃ t, exec (.xor n d) (live c) = .next t := by
  obtain ⟨ks, u, hg⟩ := State.genStep_of_complete (s := live c) (Memory.complete_ofWords _) (Memory.complete_ofWords _)
  exact ⟨_, exec_xor_of_step hn rfl hg⟩

/-- One word of a sequence is answered by a live engine. -/
theorem live_serve (c : BitVec 11) (cw : PortWord) : ∃ t, serveAll [cw] (live c) = .next t ∧ ∃ r, t.delivered = [r] := by
  obtain ⟨u, hu⟩ := perform_answers (s := live c) cw (live_inv c).live_complete
  obtain ⟨r, hr⟩ := perform_answered hu
  refine ⟨u.deliver, by simp [serveAll, serve, hu], r, ?_⟩
  rw [State.deliver_delivered, hr.delivered, hr.pending]
  rfl

theorem test_witness_EncodeDecodeGivesWordBack : decode 0x2000000055#40 = .ok (.keyb 0x55#8) := by decide

theorem test_witness_RotateMovesEachBit : (0 < 32 ∧ 31 < 32) ∧ (rotr 0x80000000#32 31).getLsbD 0 = true := by decide

theorem test_witness_ExpansionFunctionsBitByBit : 21 < 32 ∧ 22 < 32 ∧ (f1 0x80000000#32).getLsbD 28 = true ∧
    (f2 0x80000000#32).getLsbD 21 = true := by decide

/-- In the middle of a command, and with a valid response the host is ready for (log 14). -/
theorem test_witness_ResetEdgeAbandonsEverything :
    (withEdge (busy 3) true true 0x6000000000#40 true).edgePins.rst = true ∧
    (withEdge (busy 0) true false 0#40 true).edgePins.rst = true ∧ (withEdge (busy 0) true false 0#40 true).rspValid = true := by
  decide

theorem test_witness_IdleEngineDoesNothing : State.reset.edgePins.rst = false ∧ State.reset.edgePins.cmdValid = false ∧
    State.reset.port = .ready := by decide

theorem test_witness_StepRunsDecodedInstruction :
    let s := State.reset.withFetchWord 40 0x2000000055
    s.accepts s.edgePins = some s.edgePins.cmdWord ∧ decode s.edgePins.cmdWord = .ok (.keyb 0x55#8) := by decide

theorem test_witness_StepRefusesMalformedWord :
    let s := State.reset.withFetchWord 40 0x2000000100
    s.accepts s.edgePins = some s.edgePins.cmdWord ∧ decode s.edgePins.cmdWord = .error .keybField := by decide

theorem test_witness_AcceptanceNeedsValidAndReady :
    State.reset.accepts ⟨false, true, 0#40, false⟩ = some 0#40 ∧ State.reset.accepts ⟨true, true, 0#40, false⟩ = none ∧
    State.reset.accepts ⟨false, false, 0#40, false⟩ = none ∧ (busy 0).accepts ⟨false, true, 0#40, false⟩ = none := by decide

theorem test_witness_ResponseIsHeldUntilDelivered_held :
    let s := withEdge (busy 0) false true 0#40 false
    s.edgePins.rst = false ∧ s.rspValid = true ∧ s.pending = some ⟨.ok, 0#4, 0#32⟩ ∧ s.edgePins.rspReady = false := by decide

theorem test_witness_ResponseIsHeldUntilDelivered_taken :
    let s := withEdge (busy 0) false true 0#40 true
    s.edgePins.rst = false ∧ s.rspValid = true ∧ s.pending = some ⟨.ok, 0#4, 0#32⟩ ∧ s.edgePins.rspReady = true := by decide

theorem test_witness_BusyPortAcceptsNothing :
    (withEdge (busy 1) false true 0#40 true).edgePins.rst = false ∧
    (withEdge (busy 1) false true 0#40 true).pending = some ⟨.ok, 0#4, 0#32⟩ := by decide

theorem test_witness_ResponseBecomesValid :
    (busy 2).port = .inFlight 2 ⟨.ok, 0#4, 0#32⟩ ∧ ∀ e ∈ (busy 2).pins.take 2, e.rst = false := by decide

/-- Two edges: a command is accepted at the first. -/
theorem test_witness_PortIsFunctionOfAcceptedWords :
    let s := State.reset.withFetchWord 40 0x2000000055
    s.port = .ready ∧ (∀ e ∈ s.pins.take 2, e.rst = false) ∧ (∃ t, core.run 2 s = Host.Outcome.next t) ∧
      acceptedWords 1 s = [0x2000000055#40] := by
  refine ⟨rfl, by decide, ?_, by decide⟩
  obtain ⟨u, hu⟩ : ∃ u, step (State.reset.withFetchWord 40 0x2000000055) = .next u := ⟨_, rfl⟩
  obtain ⟨v, hv⟩ : ∃ v, step u = .next v := by
    have hp : u.port = .inFlight (Config.cmdWait 0) ⟨.ok, 0#4, 0#32⟩ := by cases hu; rfl
    have he : u.edgePins = Pins.quiet := by cases hu; rfl
    unfold step clockEdge
    rw [he, State.dropEdge_port, hp]
    simp only [Pins.quiet]
    cases Config.cmdWait 0 with
    | zero => exact ⟨_, rfl⟩
    | succ w => exact ⟨_, rfl⟩
  exact ⟨v, by rw [core_run_succ 1 hu, core_run_succ 0 hv, core_run_zero]; rfl⟩

/-- `KLEN` at 0, at 31 (the last byte stored) and at 32 (the first byte dropped). -/
theorem test_witness_KeybAppendsOneByte : State.reset.rdy = false ∧ { State.reset with klen := 31 }.rdy = false ∧
    { State.reset with klen := 32 }.rdy = false := by decide

theorem test_witness_IvbAppendsOneByte : State.reset.rdy = false ∧ { State.reset with ivlen := 31 }.rdy = false ∧
    { State.reset with ivlen := 32 }.rdy = false := by decide

/-- Both clauses at once, from reset; a buffer of 33 bytes is one byte too long. -/
theorem test_witness_LoadingPadsAndTruncates : State.reset.rdy = false ∧ State.reset.klen = 0 ∧
    State.reset.key = padded [] ∧ State.reset.ivlen = 0 ∧ State.reset.iv = padded [] ∧
    padded (List.replicate 33 0x01#8) = Vector.replicate 32 0x01#8 ∧ (padded [0x55#8])[1] = 0x00#8 := by decide

theorem test_witness_InitBuildsInstanceOfBuffers : State.reset.rdy = false := by decide

theorem test_witness_InitDependsOnlyOnBuffers : ∃ s s' t t' : State, s.rdy = false ∧ s'.rdy = false ∧ s'.key = s.key ∧
    s'.iv = s.iv ∧ s'.klen ≠ s.klen ∧ exec (.init .encrypt) s = .next t ∧ exec (.init .decrypt) s' = .next t' :=
  ⟨State.reset, { State.reset with klen := 1 }, _, _, rfl, rfl, rfl, rfl, by decide, rfl, rfl⟩

theorem test_witness_InitializeCommandsMakeInstance : State.reset.port = .ready := by decide

/-- The two ends of the P-active range and of the count. -/
theorem test_witness_XorTakesPActiveStep : 1 ≤ (1#4).toNat ∧ (4#4).toNat ≤ 4 ∧ (live 0).rdy = true ∧ (live 1023).rdy = true ∧
    (live 0).ctr.toNat < 1024 ∧ (live 1023).ctr.toNat < 1024 ∧ HoldsWords (live 1023).p (fun _ => 0#32) ∧
    HoldsWords (live 1023).q (fun _ => 0#32) :=
  ⟨by decide, by decide, rfl, rfl, by decide, by decide, zeroTable_holds, zeroTable_holds⟩

/-- The two ends of the Q-active range. -/
theorem test_witness_XorTakesQActiveStep : 1 ≤ (1#4).toNat ∧ (4#4).toNat ≤ 4 ∧ (live 1024).rdy = true ∧
    (live 2047).rdy = true ∧ 1024 ≤ (live 1024).ctr.toNat ∧ 1024 ≤ (live 2047).ctr.toNat ∧
    HoldsWords (live 2047).p (fun _ => 0#32) ∧ HoldsWords (live 2047).q (fun _ => 0#32) :=
  ⟨by decide, by decide, rfl, rfl, by decide, by decide, zeroTable_holds, zeroTable_holds⟩

theorem test_witness_XorIsPerformedWhenLive : 1 ≤ (1#4).toNat ∧ (1#4).toNat ≤ 4 ∧ (live 0).rdy = true ∧ (live 0).Inv :=
  ⟨by decide, by decide, rfl, live_inv 0⟩

/-- Lanes below the count and the first lane at it. -/
theorem test_witness_OutputLanesAreIndependent : 1 ≤ (3#4).toNat ∧ (3#4).toNat ≤ 4 ∧ (2 : Fin 4).val < (3#4).toNat ∧
    ¬ (3 : Fin 4).val < (3#4).toNat := by decide

theorem test_witness_UpperDataLanesAreIgnored : 1 ≤ (1#4).toNat ∧ (1#4).toNat ≤ 4 ∧
    (∀ k : Fin 4, k.val < (1#4).toNat → byteOf k 0x0000006F#32 = byteOf k 0xAABBCC6F#32) ∧
    ∃ t, exec (.xor 1#4 0x0000006F#32) (live 0) = .next t :=
  ⟨by decide, by decide, by decide, live_xor 0 _ _ (by decide)⟩

theorem test_witness_KeystreamIndependentOfData : (live 0).Inv ∧ (live 0).rdy = true ∧
    { live 0 with dir := .decrypt }.p = (live 0).p ∧ { live 0 with dir := .decrypt }.q = (live 0).q ∧
    { live 0 with dir := .decrypt }.ctr = (live 0).ctr ∧ { live 0 with dir := .decrypt }.rdy = true ∧
    1 ≤ (1#4).toNat ∧ (1#4).toNat ≤ 4 :=
  ⟨live_inv 0, rfl, rfl, rfl, rfl, rfl, by decide, by decide⟩

theorem test_witness_XorOnUnwrittenTablesFaults : 1 ≤ (4#4).toNat ∧ (4#4).toNat ≤ 4 ∧ { State.reset with rdy := true }.rdy = true ∧
    (∀ j, Memory.read { State.reset with rdy := true }.p j = none) ∧
    (∀ j, Memory.read { State.reset with rdy := true }.q j = none) :=
  ⟨by decide, by decide, rfl, fun _ => rfl, fun _ => rfl⟩

/-- At the first and at the last counter value. -/
theorem test_witness_TransformXorsKeystream : (live 0).rdy = true ∧ (live 0).port = .ready ∧
    (live 0).Holds ⟨fun _ => 0#32, fun _ => 0#32, 0⟩ ∧ (live 2047).Holds ⟨fun _ => 0#32, fun _ => 0#32, 2047⟩ :=
  ⟨rfl, rfl, ⟨zeroTable_holds, zeroTable_holds, rfl⟩, ⟨zeroTable_holds, zeroTable_holds, rfl⟩⟩

/-- Two engines with different histories. -/
theorem test_witness_EncryptThenDecryptRoundTrips : State.reset.port = .ready ∧
    { State.reset with err := true, klen := 5 }.port = .ready := by decide

/-- The second engine has another direction. -/
theorem test_witness_TransformIsItsOwnInverse : ∃ (s' t : State) (rs : List Response), (live 0).Inv ∧ (live 0).rdy = true ∧
    (live 0).port = .ready ∧ s'.rdy = true ∧ s'.port = .ready ∧ s'.p = (live 0).p ∧ s'.q = (live 0).q ∧
    s'.ctr = (live 0).ctr ∧ s'.dir ≠ (live 0).dir ∧ serveAll (transformWords [0x6F#8]) (live 0) = .next t ∧
    t.delivered = (live 0).delivered ++ rs := by
  obtain ⟨t, ht, r, hr⟩ := live_serve 0 (encode (.xor 1 (le32 0x6F#8 0 0 0)))
  exact ⟨{ live 0 with dir := .decrypt }, t, [r], live_inv 0, rfl, rfl, rfl, rfl, rfl, rfl, rfl, by decide, ht, hr⟩

theorem test_witness_SameKeystreamLeaksDifference : ∃ (t t' : State) (rs rs' : List Response), (live 0).Inv ∧
    (live 0).rdy = true ∧ (live 0).port = .ready ∧ [0x6F#8].length = [0x00#8].length ∧
    serveAll (transformWords [0x6F#8]) (live 0) = .next t ∧ t.delivered = (live 0).delivered ++ rs ∧
    serveAll (transformWords [0x00#8]) (live 0) = .next t' ∧ t'.delivered = (live 0).delivered ++ rs' := by
  obtain ⟨t, ht, r, hr⟩ := live_serve 0 (encode (.xor 1 (le32 0x6F#8 0 0 0)))
  obtain ⟨t', ht', r', hr'⟩ := live_serve 0 (encode (.xor 1 (le32 0x00#8 0 0 0)))
  exact ⟨t, t', [r], [r'], live_inv 0, rfl, rfl, rfl, ht, hr, ht', hr'⟩

theorem test_witness_CutsAtFourBytesAreInvisible : [0x48#8, 0x65#8, 0x6C#8, 0x6C#8].length % 4 = 0 ∧
    ∃ t, serveAll (transformWords [0x48#8, 0x65#8, 0x6C#8, 0x6C#8]) (live 0) = .next t := by
  obtain ⟨t, ht, -⟩ := live_serve 0 (encode (.xor 4 (le32 0x48#8 0x65#8 0x6C#8 0x6C#8)))
  exact ⟨by decide, t, ht⟩

theorem test_witness_ReservedRowsAreRefused : (∃ x, Instr.reserved0 0#36 = .reserved0 x) ∧
    (∃ x, Instr.reserved7 1#36 = .reserved7 x) ∧ ∃ x, Instr.reserved8F 0x7FFFFFFFFF#39 = .reserved8F x :=
  ⟨⟨_, rfl⟩, ⟨_, rfl⟩, ⟨_, rfl⟩⟩

/-- Each of the four forms. -/
theorem test_witness_OutOfSequenceCommandsAreRefused : (live 0).rdy = true ∧ (∃ b, Instr.keyb 0#8 = .keyb b) ∧
    (∃ b, Instr.ivb 0#8 = .ivb b) ∧ (∃ m, Instr.init .decrypt = .init m) ∧ State.reset.rdy = false ∧
    ∃ n d, Instr.xor 4#4 0#32 = .xor n d ∧ (Instr.xor 4#4 0#32).WellFormed :=
  ⟨rfl, ⟨_, rfl⟩, ⟨_, rfl⟩, ⟨_, rfl⟩, rfl, _, _, rfl, by decide⟩

/-- The counts next to the legal range, and the largest. -/
theorem test_witness_XorWithBadCountIsRefused : (0#4).toNat = 0 ∧ 5 ≤ (5#4).toNat ∧ 5 ≤ (15#4).toNat := by decide

theorem test_witness_RefusalsArePrecise : ∃ (t : State) (rsp : Response),
    perform 0x1000000001#40 State.reset = .next t ∧ t.pending = some rsp ∧ rsp.st ≠ .ok :=
  ⟨_, ⟨.errArg, 0#4, 0#32⟩, rfl, rfl, by decide⟩

/-- Engines that meet the invariant, live and not: for EveryCommandWordIsAnswered and InvariantStatesRunForever. -/
theorem test_witness_Inv : (live 0).Inv ∧ State.Inv { State.reset with klen := 1, err := true } := by
  refine ⟨live_inv 0, ⟨by decide, by decide, ?_, ?_, ?_, ?_, by decide, by decide⟩⟩
  · intro k _; simp [State.reset]
  · intro k _; simp [State.reset]
  · intro hr; cases hr
  · intro; decide

theorem test_witness_EveryStepKeepsInvariant : ∃ t, (live 0).Inv ∧ step (live 0) = .next t := ⟨_, live_inv 0, rfl⟩

theorem test_witness_ErrIsClearedOnlyByReset : ∃ t, { State.reset with err := true }.edgePins.rst = false ∧
    step { State.reset with err := true } = .next t ∧ { State.reset with err := true }.err = true := ⟨_, rfl, rfl, rfl⟩

/-- An instruction other than `STAT`, and `STAT`. -/
theorem test_witness_ErrAffectsNothing : (∃ t, exec (.keyb 0x55#8) State.reset = .next t) ∧ Instr.keyb 0x55#8 ≠ .stat ∧
    ∃ t, exec .stat State.reset = .next t := ⟨⟨_, rfl⟩, by decide, ⟨_, rfl⟩⟩

theorem test_witness_DirectionAffectsNoTransform : ∃ t, exec (.xor 4#4 0#32) (live 0) = .next t :=
  live_xor 0 _ _ (by decide)

/-- A refused `KEYB` in a live engine. -/
theorem test_witness_LiveInstanceKeepsBuffers : ∃ t, step ((live 0).withCommand 0x2000000055#40) = .next t ∧
    ((live 0).withCommand 0x2000000055#40).rdy = true ∧ t.rdy = true := ⟨_, rfl, rfl, rfl⟩

/-- `INIT` makes the instance live; `NEW` ends it. -/
theorem test_witness_LifecycleTransitions :
    (∃ t, step (State.reset.withCommand 0x4000000001#40) = .next t ∧
      (State.reset.withCommand 0x4000000001#40).rdy = false ∧ t.rdy = true) ∧
    ∃ t, step ((live 0).withCommand 0x1000000000#40) = .next t ∧ ((live 0).withCommand 0x1000000000#40).rdy = true ∧
      t.rdy = false := ⟨⟨_, rfl, rfl, rfl⟩, ⟨_, rfl, rfl, rfl⟩⟩

/-- One state for each disjunct: a performed `XOR`, and an edge on which nothing is accepted. -/
theorem test_witness_OnlyXorMovesLiveTables :
    (∃ t, step ((live 0).withCommand (encode (.xor 4#4 0#32))) = .next t ∧ t.rdy = true) ∧
    ∃ t, step (live 0) = .next t ∧ (live 0).rdy = true ∧ t.rdy = true := by
  refine ⟨?_, ⟨_, rfl, rfl, rfl⟩⟩
  obtain ⟨ks, u, hg⟩ := State.genStep_of_complete (s := ((live 0).withCommand (encode (.xor 4#4 0#32))).dropEdge)
    (Memory.complete_ofWords _) (Memory.complete_ofWords _)
  refine ⟨_, exec_xor_of_step (n := 4#4) (d := 0#32) (by decide) rfl hg, ?_⟩
  obtain ⟨w, hw⟩ := State.genStep_cases hg
  subst hw
  rw [State.respond_rdy, State.writeEntry_rdy]
  rfl

/-- Two engines with different keys; `STAT` is no `XOR`. -/
theorem test_witness_ResponsesHideSecretState :
    ∃ (s' t t' : State), s'.key ≠ State.reset.key ∧ s'.klen = State.reset.klen ∧ s'.ivlen = State.reset.ivlen ∧
      s'.ctr = State.reset.ctr ∧ s'.rdy = State.reset.rdy ∧ s'.dir = State.reset.dir ∧ s'.err = State.reset.err ∧
      perform 0x6000000000#40 State.reset = .next t ∧ perform 0x6000000000#40 s' = .next t' ∧
      ∀ n d, decode 0x6000000000#40 = .ok (.xor n d) → State.reset.rdy = false ∨ ¬ (1 ≤ n.toNat ∧ n.toNat ≤ 4) :=
  ⟨{ State.reset with key := Vector.replicate 32 0xFF#8 }, _, _, by decide, rfl, rfl, rfl, rfl, rfl, rfl, rfl, rfl,
    fun _ _ _ => .inl rfl⟩

/-- The second engine has other pins and another history. -/
theorem test_witness_SameWordsGiveSameResponses : ∃ (s' t : State) (rs : List Response), (live 0).port = .ready ∧
    s'.port = .ready ∧ (live 0).SameEngine s' ∧ s'.served ≠ (live 0).served ∧
    serveAll [0x2000000055#40] (live 0) = .next t ∧ t.delivered = (live 0).delivered ++ rs := by
  obtain ⟨t, ht, r, hr⟩ := live_serve 0 0x2000000055#40
  exact ⟨{ live 0 with served := 7 }, t, [r], rfl, rfl, by constructor <;> rfl, by decide, ht, hr⟩

end Sys2Proof.Tests
end

/-! PROOFS. The state: its invariant, what each field depends on, and what one step can change (10_state.md). -/

namespace Sys2Proof

/-! ### The word of a decoded instruction (R93, R97, R99) -/

/-- Bit 39 of a word whose opcode is none of 0 to 7 (R98). -/
theorem top_bit_of_op {cw : PortWord} (h0 : opField cw ≠ 0#4) (h1 : opField cw ≠ 1#4) (h2 : opField cw ≠ 2#4)
    (h3 : opField cw ≠ 3#4) (h4 : opField cw ≠ 4#4) (h5 : opField cw ≠ 5#4) (h6 : opField cw ≠ 6#4)
    (h7 : opField cw ≠ 7#4) : cw.extractLsb' 39 1 = 1#1 := by
  have hop := opField_toNat cw
  have hlt := cw.isLt
  apply BitVec.eq_of_toNat_eq
  simp only [← BitVec.toNat_inj.ne, BitVec.toNat_ofNat] at *
  rw [BitVec.extractLsb'_toNat, Nat.shiftRight_eq_div_pow]
  omega

/-- A command word is known by its three fields (R93). -/
theorem append_of_fields {cw : PortWord} {a n : BitVec 4} {d : Word} (ha : opField cw = a) (hn : nField cw = n)
    (hd : dField cw = d) : a ++ n ++ d = cw := by
  rw [← ha, ← hn, ← hd, fields_append]

/-- A data field whose upper 24 bits are 0 is a byte (R102). -/
theorem byte_of_upper_zero {d : Word} (hd : d.extractLsb' 8 24 = 0#24) : d = 0#24 ++ d.extractLsb' 0 8 := by
  rw [← hd, BitVec.extractLsb'_append_extractLsb']

/-- A data field whose upper 31 bits are 0 is the bit of its mode (R103). -/
theorem mode_of_upper_zero {d : Word} (hd : d.extractLsb' 1 31 = 0#31) :
    d = 0#31 ++ (Mode.ofBit (d.getLsbD 0)).bit := by
  have hbit : (Mode.ofBit (d.getLsbD 0)).bit = d.extractLsb' 0 1 := by
    apply BitVec.eq_of_getLsbD_eq
    intro i hi
    obtain rfl : i = 0 := by omega
    cases h : d.getLsbD 0 <;> simp_all [Mode.ofBit, Mode.bit]
  rw [hbit, ← hd, BitVec.extractLsb'_append_extractLsb']

/-- A word that decodes is the word of its instruction. -/
theorem encode_of_decode {cw : PortWord} {i : Instr} (hd : decode cw = .ok i) : encode i = cw := by
  simp only [decode] at hd
  split_ifs at hd with h0 h1 hf h2 hf h3 hf h4 hf h5 h6 hf h7 <;> cases hd
  · exact (congrArg (· ++ _) h0).symm.trans BitVec.extractLsb'_append_extractLsb'
  · exact append_of_fields h1 hf.1 hf.2
  · exact append_of_fields h2 hf.1 (byte_of_upper_zero hf.2)
  · exact append_of_fields h3 hf.1 (byte_of_upper_zero hf.2)
  · exact append_of_fields h4 hf.1 (mode_of_upper_zero hf.2)
  · exact append_of_fields h5 rfl rfl
  · exact append_of_fields h6 hf.1 hf.2
  · exact (congrArg (· ++ _) h7).symm.trans BitVec.extractLsb'_append_extractLsb'
  · exact (congrArg (· ++ _) (top_bit_of_op h0 h1 h2 h3 h4 h5 h6 h7)).symm.trans BitVec.extractLsb'_append_extractLsb'

end Sys2Proof

namespace Sys2Proof.Machine

/-! ### The taken step of `XOR`, and the operations on a state with its inputs taken off -/

/-- What a performed `XOR` does to the engine: one entry of the active table becomes `w` and the counter advances
(R195). -/
def State.stepWrite (s : State) (w : Word) : State :=
  { s.writeEntry (activeTable s.ctr) (writeIndex s.ctr) w with ctr := nextCounter s.ctr }

@[simp] theorem State.stepWrite_key (s : State) (w : Word) : (s.stepWrite w).key = s.key := by simp [State.stepWrite]

@[simp] theorem State.stepWrite_iv (s : State) (w : Word) : (s.stepWrite w).iv = s.iv := by simp [State.stepWrite]

@[simp] theorem State.stepWrite_klen (s : State) (w : Word) : (s.stepWrite w).klen = s.klen := by simp [State.stepWrite]

@[simp] theorem State.stepWrite_ivlen (s : State) (w : Word) : (s.stepWrite w).ivlen = s.ivlen := by
  simp [State.stepWrite]

@[simp] theorem State.stepWrite_rdy (s : State) (w : Word) : (s.stepWrite w).rdy = s.rdy := by simp [State.stepWrite]

@[simp] theorem State.stepWrite_dir (s : State) (w : Word) : (s.stepWrite w).dir = s.dir := by simp [State.stepWrite]

@[simp] theorem State.stepWrite_err (s : State) (w : Word) : (s.stepWrite w).err = s.err := by simp [State.stepWrite]

@[simp] theorem State.stepWrite_ctr (s : State) (w : Word) : (s.stepWrite w).ctr = nextCounter s.ctr := rfl

/-- `P` after a step: one entry written below 1024 (R193). -/
theorem State.stepWrite_p (s : State) (w : Word) :
    (s.stepWrite w).p = if s.ctr.toNat < 1024 then Memory.write s.p (writeIndex s.ctr).toNat w else s.p := by
  rw [State.stepWrite, activeTable_eq]
  split <;> rfl

/-- `Q` after a step: one entry written from 1024 on (R194). -/
theorem State.stepWrite_q (s : State) (w : Word) :
    (s.stepWrite w).q = if s.ctr.toNat < 1024 then s.q else Memory.write s.q (writeIndex s.ctr).toNat w := by
  rw [State.stepWrite, activeTable_eq]
  split <;> rfl

theorem State.stepWrite_dropEdge (s : State) (w : Word) : s.dropEdge.stepWrite w = (s.stepWrite w).dropEdge := by
  simp only [State.stepWrite, State.dropEdge_ctr]
  cases activeTable s.ctr <;> rfl

/-- The count after a key byte (R151, R154). -/
theorem State.pushKey_klen (s : State) (b : Byte) :
    (s.pushKey b).klen = if s.klen.toNat < 32 then s.klen + 1 else s.klen := by
  unfold State.pushKey
  split <;> rfl

/-- The count after an IV byte (R152, R154). -/
theorem State.pushIv_ivlen (s : State) (b : Byte) :
    (s.pushIv b).ivlen = if s.ivlen.toNat < 32 then s.ivlen + 1 else s.ivlen := by
  unfold State.pushIv
  split <;> rfl

/-- A count below 32 plus one, as a number. -/
theorem toNat_succ_of_lt {len : BitVec 6} (hlt : len.toNat < 32) : (len + 1).toNat = len.toNat + 1 := by
  rw [BitVec.toNat_add, show (1 : BitVec 6).toNat = 1 from rfl]
  omega

theorem State.pushKey_klen_toNat (s : State) (b : Byte) :
    (s.pushKey b).klen.toNat = if s.klen.toNat < 32 then s.klen.toNat + 1 else s.klen.toNat := by
  rw [State.pushKey_klen]
  split
  · exact toNat_succ_of_lt ‹_›
  · rfl

theorem State.pushIv_ivlen_toNat (s : State) (b : Byte) :
    (s.pushIv b).ivlen.toNat = if s.ivlen.toNat < 32 then s.ivlen.toNat + 1 else s.ivlen.toNat := by
  rw [State.pushIv_ivlen]
  split
  · exact toNat_succ_of_lt ‹_›
  · rfl

/-- The buffer after a key byte: the byte stands at `KEY[KLEN]`, if there is such an entry (R151, R154). -/
theorem State.pushKey_key (s : State) (b : Byte) (k : Nat) (hk : k < 32) :
    (s.pushKey b).key[k] = if k = s.klen.toNat then b else s.key[k] := by
  by_cases hlt : s.klen.toNat < 32
  · simp [State.pushKey_of_lt s b hlt, Vector.getElem_set, eq_comm]
  · simp [State.pushKey_of_full s b (Nat.le_of_not_lt hlt), show k ≠ s.klen.toNat by omega]

/-- The buffer after an IV byte: the byte stands at `IV[IVLEN]`, if there is such an entry (R152, R154). -/
theorem State.pushIv_iv (s : State) (b : Byte) (k : Nat) (hk : k < 32) :
    (s.pushIv b).iv[k] = if k = s.ivlen.toNat then b else s.iv[k] := by
  by_cases hlt : s.ivlen.toNat < 32
  · simp [State.pushIv_of_lt s b hlt, Vector.getElem_set, eq_comm]
  · simp [State.pushIv_of_full s b (Nat.le_of_not_lt hlt), show k ≠ s.ivlen.toNat by omega]

theorem State.pushKey_dropEdge (s : State) (b : Byte) : s.dropEdge.pushKey b = (s.pushKey b).dropEdge := by
  by_cases hlt : s.klen.toNat < 32
  · rw [s.pushKey_of_lt b hlt, s.dropEdge.pushKey_of_lt b hlt]
    rfl
  · rw [s.pushKey_of_full b (Nat.le_of_not_lt hlt), s.dropEdge.pushKey_of_full b (Nat.le_of_not_lt hlt)]

theorem State.pushIv_dropEdge (s : State) (b : Byte) : s.dropEdge.pushIv b = (s.pushIv b).dropEdge := by
  by_cases hlt : s.ivlen.toNat < 32
  · rw [s.pushIv_of_lt b hlt, s.dropEdge.pushIv_of_lt b hlt]
    rfl
  · rw [s.pushIv_of_full b (Nat.le_of_not_lt hlt), s.dropEdge.pushIv_of_full b (Nat.le_of_not_lt hlt)]

/-! ### Agreement after an answer -/

theorem State.sameEngine_respond (s : State) (wait : Nat) (rsp : Response) : s.SameEngine (s.respond wait rsp) := by
  constructor <;> rfl

theorem State.sameEngine_answer (s : State) (d : Word) : s.SameEngine (s.answer d) := s.sameEngine_respond _ _

/-- An answered command on a state with its inputs taken off. -/
theorem State.sameEngine_dropEdge_respond (s : State) (wait : Nat) (rsp : Response) :
    s.SameEngine (s.dropEdge.respond wait rsp) :=
  s.sameEngine_dropEdge.trans (s.dropEdge.sameEngine_respond _ _)

/-! ### What one step does to the ten fields -/

/-- What a step from `s` to `t` has done to the ten fields of R21: a reset; nothing but perhaps setting `ERR`; or the
effect of one performed command, whose word was accepted on this edge. -/
inductive EngineStep (s t : State) : Prop where
  | reset (hrst : s.edgePins.rst = true) (ht : State.reset.SameEngine t)
  | kept (err : Bool) (he : s.err = true → err = true) (ht : State.SameEngine { s with err := err } t)
  | new (hacc : s.accepts s.edgePins = some (encode .new)) (ht : s.clear.SameEngine t)
  | keyb (b : Byte) (hr : s.rdy = false) (ht : (s.pushKey b).SameEngine t)
  | ivb (b : Byte) (hr : s.rdy = false) (ht : (s.pushIv b).SameEngine t)
  | init (m : Mode) (hacc : s.accepts s.edgePins = some (encode (.init m))) (hr : s.rdy = false)
      (ht : (s.create m).SameEngine t)
  | xor (n : BitVec 4) (d w : Word) (hacc : s.accepts s.edgePins = some (encode (.xor n d))) (hn : countLegal n = true)
      (hr : s.rdy = true) (ht : (s.stepWrite w).SameEngine t)

theorem EngineStep.of_sameEngine {s t : State} (ht : s.SameEngine t) : EngineStep s t := .kept s.err id ht

theorem EngineStep.of_refuse (s : State) (e : Status) : EngineStep s (s.dropEdge.refuse e) :=
  .kept true (fun _ => rfl) (by constructor <;> rfl)

/-- The effect of an accepted instruction on the ten fields. -/
theorem EngineStep.of_effect {s t : State} {i : Instr} (hacc : s.accepts s.edgePins = some (encode i))
    (he : Effect s.dropEdge t i) : EngineStep s t := by
  cases he with
  | refused _ e _ ht => exact ht ▸ .of_refuse s e
  | new ht => exact .new hacc (ht ▸ s.clear.sameEngine_dropEdge_respond _ _)
  | keyb b hr ht =>
    rw [State.pushKey_dropEdge] at ht
    exact .keyb b hr (ht ▸ (s.pushKey b).sameEngine_dropEdge_respond _ _)
  | ivb b hr ht =>
    rw [State.pushIv_dropEdge] at ht
    exact .ivb b hr (ht ▸ (s.pushIv b).sameEngine_dropEdge_respond _ _)
  | init m hr ht => exact .init m hacc hr (ht ▸ (s.create m).sameEngine_dropEdge_respond _ _)
  | xor n d ks u hn hr hg ht =>
    obtain ⟨w, hu⟩ := State.genStep_cases hg
    have hw : u = (s.stepWrite w).dropEdge := hu.trans (s.stepWrite_dropEdge w)
    exact .xor n d w hacc hn hr (ht ▸ hw ▸ (s.stepWrite w).sameEngine_dropEdge_respond _ _)
  | stat ht => exact .of_sameEngine (ht ▸ s.sameEngine_dropEdge_respond _ _)

/-- An idle port accepts the word on its pins (R91). -/
theorem State.accepts_of_valid {s : State} (hrst : s.edgePins.rst = false) (hport : s.port = .ready)
    (hval : s.edgePins.cmdValid = true) : s.accepts s.edgePins = some s.edgePins.cmdWord := by
  simp [State.accepts, State.cmdReady, hrst, hport, hval]

/-- Everything a step can do to the ten fields. -/
theorem engineStep_of_step {s t : State} (hx : step s = .next t) : EngineStep s t := by
  obtain ⟨hrst, rfl⟩ | ⟨-, -, -, rfl⟩ | ⟨hrst, hport, hval, hp⟩ | ⟨_, -, -, -, rfl⟩ | ⟨_, -, -, -, rfl⟩ |
    ⟨_, _, -, -, rfl⟩ := step_cases hx
  · exact .reset hrst (by constructor <;> rfl)
  · exact .of_sameEngine s.sameEngine_dropEdge
  · have hacc := State.accepts_of_valid hrst hport hval
    obtain ⟨i, hd, he⟩ | ⟨r, -, rfl⟩ := perform_cases hp
    · exact .of_effect (encode_of_decode hd ▸ hacc) he
    · exact .of_refuse s .errArg
  · exact .of_sameEngine s.sameEngine_dropEdge
  · exact .of_sameEngine (s.sameEngine_dropEdge.trans s.dropEdge.sameEngine_deliver)
  · exact .of_sameEngine (s.sameEngine_dropEdge.trans (s.dropEdge.sameEngine_port _))

/-! ### The invariant of R41 -/

/-- The invariant speaks of the ten fields only, and not of `ERR`. -/
theorem State.Inv.of_sameEngine {s t : State} {e : Bool} (h : s.Inv) (ht : State.SameEngine { s with err := e } t) :
    t.Inv where
  klen_le := ht.klen ▸ h.klen_le
  ivlen_le := ht.ivlen ▸ h.ivlen_le
  key_zero := by rw [ht.klen, ht.key]; exact h.key_zero
  iv_zero := by rw [ht.ivlen, ht.iv]; exact h.iv_zero
  live_complete := by rw [ht.rdy, ht.p, ht.q]; exact h.live_complete
  empty_clear := by rw [ht.rdy, ht.ctr, ht.dir]; exact h.empty_clear
  p_wf := ht.p ▸ h.p_wf
  q_wf := ht.q ▸ h.q_wf

/-- `NEW` gives the invariant, whatever stood before (R150). -/
theorem State.clear_inv (s : State) : s.clear.Inv where
  klen_le := Nat.zero_le 32
  ivlen_le := Nat.zero_le 32
  key_zero k _ := by rw [State.clear_key, Vector.getElem_replicate]
  iv_zero k _ := by rw [State.clear_iv, Vector.getElem_replicate]
  live_complete hr := by cases hr
  empty_clear _ := ⟨rfl, rfl⟩
  p_wf := Memory.wf_nil
  q_wf := Memory.wf_nil

/-- Reset leaves the engine as `NEW` does, with `ERR` clear (R39, R150). -/
theorem State.reset_inv : State.reset.Inv := State.reset.clear_inv

/-- A buffer that is zero from its count on stays so when a byte is appended to it and counted, or, at 32 bytes, ignored
(R41(a), R41(b)). -/
theorem zero_above_count_of_append {buf buf' : Buffer} {len len' : BitVec 6} {b : Byte}
    (hlen : len'.toNat = if len.toNat < 32 then len.toNat + 1 else len.toNat)
    (hbuf : ∀ (k : Nat) (hk : k < 32), buf'[k] = if k = len.toNat then b else buf[k])
    (hzero : ∀ k : Fin 32, len.toNat ≤ k.val → buf[k.val] = 0x00#8) (k : Fin 32) (hk : len'.toNat ≤ k.val) :
    buf'[k.val] = 0x00#8 := by
  have hlt : len.toNat < k.val := by
    have := k.isLt
    split at hlen <;> omega
  rw [hbuf, if_neg (by omega)]
  exact hzero k (by omega)

/-- A key byte keeps the invariant (R151). -/
theorem State.Inv.pushKey {s : State} (h : s.Inv) (b : Byte) : (s.pushKey b).Inv where
  klen_le := by
    have := h.klen_le
    rw [State.pushKey_klen_toNat]
    split <;> omega
  ivlen_le := by rw [State.pushKey_ivlen]; exact h.ivlen_le
  key_zero := zero_above_count_of_append (s.pushKey_klen_toNat b) (s.pushKey_key b) h.key_zero
  iv_zero := by rw [State.pushKey_ivlen, State.pushKey_iv]; exact h.iv_zero
  live_complete := by rw [State.pushKey_rdy, State.pushKey_p, State.pushKey_q]; exact h.live_complete
  empty_clear := by rw [State.pushKey_rdy, State.pushKey_ctr, State.pushKey_dir]; exact h.empty_clear
  p_wf := by rw [State.pushKey_p]; exact h.p_wf
  q_wf := by rw [State.pushKey_q]; exact h.q_wf

/-- An IV byte keeps the invariant (R152). -/
theorem State.Inv.pushIv {s : State} (h : s.Inv) (b : Byte) : (s.pushIv b).Inv where
  klen_le := by rw [State.pushIv_klen]; exact h.klen_le
  ivlen_le := by
    have := h.ivlen_le
    rw [State.pushIv_ivlen_toNat]
    split <;> omega
  key_zero := by rw [State.pushIv_klen, State.pushIv_key]; exact h.key_zero
  iv_zero := zero_above_count_of_append (s.pushIv_ivlen_toNat b) (s.pushIv_iv b) h.iv_zero
  live_complete := by rw [State.pushIv_rdy, State.pushIv_p, State.pushIv_q]; exact h.live_complete
  empty_clear := by rw [State.pushIv_rdy, State.pushIv_ctr, State.pushIv_dir]; exact h.empty_clear
  p_wf := by rw [State.pushIv_p]; exact h.p_wf
  q_wf := by rw [State.pushIv_q]; exact h.q_wf

/-- `INIT` keeps the invariant: the tables it makes are complete (R173). -/
theorem State.Inv.create {s : State} (h : s.Inv) (m : Mode) : (s.create m).Inv where
  klen_le := by rw [State.create_klen]; exact h.klen_le
  ivlen_le := by rw [State.create_ivlen]; exact h.ivlen_le
  key_zero := by rw [State.create_klen, State.create_key]; exact h.key_zero
  iv_zero := by rw [State.create_ivlen, State.create_iv]; exact h.iv_zero
  live_complete _ := s.create_complete m
  empty_clear hr := by rw [State.create_rdy] at hr; cases hr
  p_wf := by rw [State.create_p]; exact Memory.wf_ofWords _
  q_wf := by rw [State.create_q]; exact Memory.wf_ofWords _

/-- A performed `XOR` keeps the invariant: a write keeps a table complete and in canonical form (R193, R194). -/
theorem State.Inv.stepWrite {s : State} (h : s.Inv) (hr : s.rdy = true) (w : Word) : (s.stepWrite w).Inv where
  klen_le := by rw [State.stepWrite_klen]; exact h.klen_le
  ivlen_le := by rw [State.stepWrite_ivlen]; exact h.ivlen_le
  key_zero := by rw [State.stepWrite_klen, State.stepWrite_key]; exact h.key_zero
  iv_zero := by rw [State.stepWrite_ivlen, State.stepWrite_iv]; exact h.iv_zero
  live_complete _ := by
    obtain ⟨hp, hq⟩ := h.live_complete hr
    rw [State.stepWrite_p, State.stepWrite_q]
    split
    · exact ⟨Memory.complete_write _ w hp, hq⟩
    · exact ⟨hp, Memory.complete_write _ w hq⟩
  empty_clear hr' := by rw [State.stepWrite_rdy, hr] at hr'; cases hr'
  p_wf := by
    rw [State.stepWrite_p]
    split
    · exact Memory.wf_write _ w h.p_wf
    · exact h.p_wf
  q_wf := by
    rw [State.stepWrite_q]
    split
    · exact h.q_wf
    · exact Memory.wf_write _ w h.q_wf

/-- Settles O48: each thing a step can do to the ten fields keeps the invariant. -/
theorem everyStepKeepsInvariant : Obligations.EveryStepKeepsInvariant := by
  intro s t hs hx
  cases engineStep_of_step hx with
  | reset _ ht => exact State.reset_inv.of_sameEngine ht
  | kept e _ ht => exact hs.of_sameEngine ht
  | new _ ht => exact s.clear_inv.of_sameEngine ht
  | keyb b _ ht => exact (hs.pushKey b).of_sameEngine ht
  | ivb b _ ht => exact (hs.pushIv b).of_sameEngine ht
  | init m _ _ ht => exact (hs.create m).of_sameEngine ht
  | xor _ _ w _ _ hr ht => exact (hs.stepWrite hr w).of_sameEngine ht

/-- Settles O47. -/
theorem invariantHoldsAtReset : Obligations.InvariantHoldsAtReset := State.reset_inv

/-! ### What one step can change -/

/-- Settles O50: what a step keeps or performs leaves `ERR` or sets it. -/
theorem errIsClearedOnlyByReset : Obligations.ErrIsClearedOnlyByReset := by
  intro s t hrst hx herr
  cases engineStep_of_step hx with
  | reset hrst' _ => rw [hrst] at hrst'; cases hrst'
  | kept e he ht => exact ht.err.trans (he herr)
  | new _ ht => rw [ht.err, State.clear_err, herr]
  | keyb b _ ht => rw [ht.err, State.pushKey_err, herr]
  | ivb b _ ht => rw [ht.err, State.pushIv_err, herr]
  | init m _ _ ht => rw [ht.err, State.create_err, herr]
  | xor _ _ w _ _ _ ht => rw [ht.err, State.stepWrite_err, herr]

/-- What a step from a live engine to a live engine does to the ten fields: nothing but perhaps setting `ERR`, or the
effect of a performed `XOR`. -/
theorem live_step_cases {s t : State} (hx : step s = .next t) (hs : s.rdy = true) (ht : t.rdy = true) :
    (∃ e, State.SameEngine { s with err := e } t) ∨
    ∃ n d w, s.accepts s.edgePins = some (encode (.xor n d)) ∧ countLegal n = true ∧
      (s.stepWrite w).SameEngine t := by
  cases engineStep_of_step hx with
  | reset _ h => cases h.rdy.symm.trans ht
  | kept e _ h => exact .inl ⟨e, h⟩
  | new _ h => cases h.rdy.symm.trans ht
  | keyb b hr h => cases hr.symm.trans hs
  | ivb b hr h => cases hr.symm.trans hs
  | init m _ hr h => cases hr.symm.trans hs
  | xor n d w hacc hn _ h => exact .inr ⟨n, d, w, hacc, hn, h⟩

/-- Settles O53: neither a kept engine nor a performed `XOR` touches the five fields. -/
theorem liveInstanceKeepsBuffers : Obligations.LiveInstanceKeepsBuffers := by
  intro s t hx hs ht
  obtain ⟨e, h⟩ | ⟨n, d, w, -, -, h⟩ := live_step_cases hx hs ht
  · exact ⟨h.key, h.iv, h.klen, h.ivlen, h.dir⟩
  · simp [h.key, h.iv, h.klen, h.ivlen, h.dir]

/-- A flag that has not moved has neither risen nor fallen. -/
theorem no_transition_of_eq {a b : Bool} {rises falls : Prop} (h : b = a) :
    (a = false → b = true → rises) ∧ (a = true → b = false → falls) := by
  subst h
  cases b <;> simp

/-- Settles O54: `RDY` rises only in the `INIT` case of a step and falls only in the cases of reset and `NEW`. -/
theorem lifecycleTransitions : Obligations.LifecycleTransitions := by
  intro s t hx
  cases engineStep_of_step hx with
  | reset hrst ht =>
    have hr : t.rdy = false := ht.rdy
    simp [hr, hrst]
  | new hacc ht =>
    have hr : t.rdy = false := ht.rdy
    simp [hr, hacc]
  | init m hacc hr ht =>
    have hdir : t.dir = m := ht.dir
    simp [hr, hacc, hdir]
  | kept e _ ht => exact no_transition_of_eq ht.rdy
  | keyb b _ ht => exact no_transition_of_eq (ht.rdy.trans (s.pushKey_rdy b))
  | ivb b _ ht => exact no_transition_of_eq (ht.rdy.trans (s.pushIv_rdy b))
  | xor _ _ w _ _ _ ht => exact no_transition_of_eq (ht.rdy.trans (s.stepWrite_rdy w))

/-- The entries of `P` and `Q` other than the one a performed `XOR` writes (R193, R194). -/
theorem State.read_stepWrite (s : State) (w : Word) :
    (∀ k, ¬ (s.ctr.toNat < 1024 ∧ k = s.ctr.toNat) → Memory.read (s.stepWrite w).p k = Memory.read s.p k) ∧
    (∀ k, ¬ (1024 ≤ s.ctr.toNat ∧ k = s.ctr.toNat - 1024) →
      Memory.read (s.stepWrite w).q k = Memory.read s.q k) := by
  have hc := s.ctr.isLt
  rw [State.stepWrite_p, State.stepWrite_q, writeIndex_toNat]
  by_cases hlt : s.ctr.toNat < 1024
  · rw [if_pos hlt, if_pos hlt]
    exact ⟨fun k hk => by rw [Memory.read_write, if_neg (by omega)], fun k _ => rfl⟩
  · rw [if_neg hlt, if_neg hlt]
    exact ⟨fun k _ => rfl, fun k hk => by rw [Memory.read_write, if_neg (by omega)]⟩

/-- Settles O55: of the two cases of a live step only a performed `XOR` moves the tables or the counter. -/
theorem onlyXorMovesLiveTables : Obligations.OnlyXorMovesLiveTables := by
  intro s t hx hs ht
  obtain ⟨e, h⟩ | ⟨n, d, w, hacc, hn, h⟩ := live_step_cases hx hs ht
  · exact .inl ⟨h.p, h.q, h.ctr⟩
  · obtain ⟨hn1, hn4⟩ := (countLegal_iff n).mp hn
    rw [h.p, h.q, h.ctr]
    exact .inr ⟨n, d, hacc, hn1, hn4, nextCounter_toNat s.ctr, s.read_stepWrite w⟩

/-! ### Refused or performed (R100) -/

/-- The status an instruction is refused with, from the flag `RDY`; none when it is performed (R100, R245). -/
def refusalStatus (rdy : Bool) : Instr → Option Status
  | .new => none
  | .keyb _ => if rdy then some .errSeq else none
  | .ivb _ => if rdy then some .errSeq else none
  | .init _ => if rdy then some .errSeq else none
  | .xor n _ => if countLegal n then if rdy then none else some .errSeq else some .errArg
  | .stat => none
  | .reserved0 _ => some .errOp
  | .reserved7 _ => some .errOp
  | .reserved8F _ => some .errOp

/-- The refusals of `exec` are those of R100. -/
theorem exec_of_refusalStatus {i : Instr} {s : State} {e : Status} (h : refusalStatus s.rdy i = some e) :
    exec i s = .next (s.refuse e) := by
  cases i with
  | new => cases h
  | keyb b => cases hr : s.rdy <;> simp_all [refusalStatus, exec, execKeyb]
  | ivb b => cases hr : s.rdy <;> simp_all [refusalStatus, exec, execIvb]
  | init m => cases hr : s.rdy <;> simp_all [refusalStatus, exec, execInit]
  | xor n d => cases hn : countLegal n <;> cases hr : s.rdy <;> simp_all [refusalStatus, exec, execXor]
  | stat => cases h
  | reserved0 x => cases h; rfl
  | reserved7 x => cases h; rfl
  | reserved8F x => cases h; rfl

theorem exec_keyb_of_empty {s : State} (b : Byte) (hr : s.rdy = false) :
    exec (.keyb b) s = .next ((s.pushKey b).answer 0#32) := by
  simp [exec, execKeyb, hr]

theorem exec_ivb_of_empty {s : State} (b : Byte) (hr : s.rdy = false) :
    exec (.ivb b) s = .next ((s.pushIv b).answer 0#32) := by
  simp [exec, execIvb, hr]

theorem exec_init_of_empty {s : State} (m : Mode) (hr : s.rdy = false) : exec (.init m) s =
    .next ((s.create m).respond (Config.initWait s.served s.key s.iv) ⟨.ok, 0#4, 0#32⟩) := by
  simp [exec, execInit, hr]

/-- An instruction that is not refused is performed: `XOR` only with a legal count in a live engine. -/
theorem xor_of_not_refused {rdy : Bool} {n : BitVec 4} {d : Word} (h : refusalStatus rdy (.xor n d) = none) :
    countLegal n = true ∧ rdy = true := by
  cases hn : countLegal n <;> cases rdy <;> simp_all [refusalStatus]

/-- An instruction that is not refused is performed: a byte or `INIT` only while `RDY` is 0. -/
theorem empty_of_not_refused {rdy : Bool} {i : Instr} (h : refusalStatus rdy i = none)
    (hi : (∃ b, i = .keyb b) ∨ (∃ b, i = .ivb b) ∨ ∃ m, i = .init m) : rdy = false := by
  obtain ⟨b, rfl⟩ | ⟨b, rfl⟩ | ⟨m, rfl⟩ := hi <;> simpa [refusalStatus] using h

/-- A performed `XOR` stops at the fault of its generator step. -/
theorem exec_xor_of_fault {n : BitVec 4} {d : Word} {s : State} {f : Fault} (hn : countLegal n = true)
    (hr : s.rdy = true) (hg : s.genStep = .error f) : exec (.xor n d) s = .fault f := by
  simp [exec, execXor, hn, hr, hg]

/-- A performed `XOR` takes a generator step (R210). -/
theorem exec_xor_performed {n : BitVec 4} {d : Word} {s t : State} (h : refusalStatus s.rdy (.xor n d) = none)
    (hx : exec (.xor n d) s = .next t) :
    ∃ ks u, s.genStep = .ok (ks, u) ∧
      t = u.respond (Config.xorWait s.served d s.p s.q) ⟨.ok, n, xorLanes n d ks⟩ := by
  obtain ⟨hn, hr⟩ := xor_of_not_refused h
  cases hg : s.genStep with
  | ok r =>
    obtain ⟨ks, u⟩ := r
    rw [exec_xor_of_step hn hr hg] at hx
    cases hx
    exact ⟨ks, u, rfl, rfl⟩
  | error f =>
    rw [exec_xor_of_fault hn hr hg] at hx
    cases hx

/-! ### What an instruction depends on -/

/-- Two engines agree on every field of R21 but `DIR` and `ERR`. -/
structure State.SameDatapath (s t : State) : Prop where
  key : t.key = s.key
  iv : t.iv = s.iv
  klen : t.klen = s.klen
  ivlen : t.ivlen = s.ivlen
  p : t.p = s.p
  q : t.q = s.q
  ctr : t.ctr = s.ctr
  rdy : t.rdy = s.rdy

/-- What two runs of one instruction agree on when their engines agree on all but `DIR` and `ERR`: all but these fields,
and each of these if it was the same before; the status; and the response, unless it is a status word that differs. -/
structure SameEffect (i : Instr) (s s' t t' : State) : Prop where
  datapath : t.SameDatapath t'
  dir : s'.dir = s.dir → t'.dir = t.dir
  err : s'.err = s.err → t'.err = t.err
  status : t.pending.map Response.st = t'.pending.map Response.st
  response : (i = .stat → s'.statw = s.statw) → t'.pending = t.pending

/-- A key byte does the same in two engines that agree on the datapath. -/
theorem State.SameDatapath.pushKey {s s' : State} (h : s.SameDatapath s') (b : Byte) :
    (s.pushKey b).SameDatapath (s'.pushKey b) := by
  constructor
  case key =>
    apply Vector.ext
    intro k hk
    simp only [State.pushKey_key, h.klen, h.key]
  case klen => simp only [State.pushKey_klen, h.klen]
  all_goals simp [h.iv, h.ivlen, h.p, h.q, h.ctr, h.rdy]

/-- An IV byte does the same in two engines that agree on the datapath. -/
theorem State.SameDatapath.pushIv {s s' : State} (h : s.SameDatapath s') (b : Byte) :
    (s.pushIv b).SameDatapath (s'.pushIv b) := by
  constructor
  case iv =>
    apply Vector.ext
    intro k hk
    simp only [State.pushIv_iv, h.ivlen, h.iv]
  case ivlen => simp only [State.pushIv_ivlen, h.ivlen]
  all_goals simp [h.key, h.klen, h.p, h.q, h.ctr, h.rdy]

/-- `INIT` does the same in two engines that agree on the datapath (R179). -/
theorem State.SameDatapath.create {s s' : State} (h : s.SameDatapath s') (m : Mode) :
    (s.create m).SameDatapath (s'.create m) := by
  constructor <;> simp [h.key, h.iv, h.klen, h.ivlen]

/-- A generator step gives the same word in two engines that agree on the datapath, and keeps them in agreement (R200);
neither flag moves. -/
theorem State.SameDatapath.genStep {s s' u : State} {ks : Word} (h : s.SameDatapath s') (hg : s.genStep = .ok (ks, u)) :
    ∃ u', s'.genStep = .ok (ks, u') ∧ u.SameDatapath u' ∧ (u.dir = s.dir ∧ u'.dir = s'.dir) ∧
      u.err = s.err ∧ u'.err = s'.err := by
  obtain ⟨w, hw⟩ := State.genStep_cases hg
  obtain rfl : u = s.stepWrite w := hw
  refine ⟨_, State.genStep_congr h.p h.q h.ctr hg, ?_, ⟨s.stepWrite_dir w, rfl⟩, s.stepWrite_err w, rfl⟩
  constructor <;> simp [h.key, h.iv, h.klen, h.ivlen, h.rdy]

/-- The same response on two engines that agree on the datapath. -/
theorem SameEffect.of_respond {i : Instr} {s s' u u' : State} (wait wait' : Nat) (rsp : Response)
    (h : u.SameDatapath u') (hdir : s'.dir = s.dir → u'.dir = u.dir) (herr : s'.err = s.err → u'.err = u.err) :
    SameEffect i s s' (u.respond wait rsp) (u'.respond wait' rsp) where
  datapath := ⟨h.key, h.iv, h.klen, h.ivlen, h.p, h.q, h.ctr, h.rdy⟩
  dir := hdir
  err := herr
  status := rfl
  response _ := rfl

/-- An instruction does the same in two engines that agree on all but `DIR` and `ERR`, save that `STAT` shows them. -/
theorem exec_congr {i : Instr} {s s' t : State} (h : s.SameDatapath s') (hx : exec i s = .next t) :
    ∃ t', exec i s' = .next t' ∧ SameEffect i s s' t t' := by
  have hrdy : s'.rdy = s.rdy := h.rdy
  cases href : refusalStatus s.rdy i with
  | some e =>
    rw [exec_of_refusalStatus href] at hx
    cases hx
    exact ⟨_, exec_of_refusalStatus (hrdy ▸ href), .of_respond _ _ _
      ⟨h.key, h.iv, h.klen, h.ivlen, h.p, h.q, h.ctr, h.rdy⟩ id fun _ => rfl⟩
  | none =>
    cases i with
    | new =>
      cases hx
      exact ⟨_, rfl, .of_respond _ _ _ (by constructor <;> rfl) (fun _ => rfl) id⟩
    | keyb b =>
      have hr := empty_of_not_refused href (.inl ⟨b, rfl⟩)
      rw [exec_keyb_of_empty b hr] at hx
      cases hx
      exact ⟨_, exec_keyb_of_empty b (hrdy.trans hr), .of_respond _ _ _ (h.pushKey b) (by simp) (by simp)⟩
    | ivb b =>
      have hr := empty_of_not_refused href (.inr (.inl ⟨b, rfl⟩))
      rw [exec_ivb_of_empty b hr] at hx
      cases hx
      exact ⟨_, exec_ivb_of_empty b (hrdy.trans hr), .of_respond _ _ _ (h.pushIv b) (by simp) (by simp)⟩
    | init m =>
      have hr := empty_of_not_refused href (.inr (.inr ⟨m, rfl⟩))
      rw [exec_init_of_empty m hr] at hx
      cases hx
      exact ⟨_, exec_init_of_empty m (hrdy.trans hr), .of_respond _ _ _ (h.create m) (by simp) (by simp)⟩
    | xor n d =>
      obtain ⟨hn, hr⟩ := xor_of_not_refused href
      obtain ⟨ks, u, hg, rfl⟩ := exec_xor_performed href hx
      obtain ⟨u', hg', hu, ⟨hdir, hdir'⟩, herr, herr'⟩ := h.genStep hg
      exact ⟨_, exec_xor_of_step hn (hrdy.trans hr) hg', .of_respond _ _ _ hu (by rw [hdir, hdir']; exact id)
        (by rw [herr, herr']; exact id)⟩
    | stat =>
      cases hx
      refine ⟨_, rfl, ⟨h.key, h.iv, h.klen, h.ivlen, h.p, h.q, h.ctr, h.rdy⟩, id, id, rfl, fun hw => ?_⟩
      rw [State.answer_pending, State.answer_pending, hw rfl]
    | reserved0 x => cases href
    | reserved7 x => cases href
    | reserved8F x => cases href

/-- Settles O51: an engine with another `ERR` agrees on the datapath and on `DIR`. -/
theorem errAffectsNothing : Obligations.ErrAffectsNothing := by
  intro i s t e hx
  obtain ⟨t', hx', h⟩ := exec_congr (s' := { s with err := e }) (by constructor <;> rfl) hx
  have hd := h.datapath
  exact ⟨t', hx', ⟨hd.key, hd.iv, hd.klen, hd.ivlen, hd.p, hd.q, hd.ctr, hd.rdy, h.dir rfl, rfl⟩, h.status,
    fun hi => h.response fun hstat => absurd hstat hi⟩

/-- `XOR` leaves `DIR` (R33). -/
theorem exec_xor_dir {n : BitVec 4} {d : Word} {s t : State} (hx : exec (.xor n d) s = .next t) : t.dir = s.dir := by
  cases exec_cases hx with
  | refused _ e _ ht => rw [ht, State.refuse_dir]
  | xor _ _ ks u _ _ hg ht =>
    obtain ⟨w, rfl⟩ := State.genStep_cases hg
    rw [ht, State.respond_dir, State.writeEntry_dir]

/-- Settles O52: an engine with another `DIR` agrees on the datapath and on `ERR`, and `XOR` leaves `DIR`. -/
theorem directionAffectsNoTransform : Obligations.DirectionAffectsNoTransform := by
  intro n d m s t hx
  obtain ⟨t', hx', h⟩ := exec_congr (s' := { s with dir := m }) (by constructor <;> rfl) hx
  have hd := h.datapath
  have hdir : t'.dir = m := exec_xor_dir hx'
  exact ⟨t', hx', ⟨hd.key, hd.iv, hd.klen, hd.ivlen, hd.p, hd.q, hd.ctr, hd.rdy, hdir, h.err rfl⟩,
    h.response fun hstat => by cases hstat⟩

/-! ### What the public fields determine -/

/-- Two engines agree on the fields of R21 that are not secret (R42). -/
structure State.SamePublic (s t : State) : Prop where
  klen : t.klen = s.klen
  ivlen : t.ivlen = s.ivlen
  ctr : t.ctr = s.ctr
  rdy : t.rdy = s.rdy
  dir : t.dir = s.dir
  err : t.err = s.err

/-- The status word shows public fields only (R35). -/
theorem State.SamePublic.statw {s s' : State} (h : s.SamePublic s') : s'.statw = s.statw := by
  simp only [State.statw, h.klen, h.ivlen, h.ctr, h.rdy, h.dir, h.err]

/-- A refusal shows and changes public fields only. -/
theorem State.SamePublic.refuse {s s' : State} (h : s.SamePublic s') (e : Status) :
    (s.refuse e).SamePublic (s'.refuse e) :=
  ⟨h.klen, h.ivlen, h.ctr, h.rdy, h.dir, rfl⟩

/-- An instruction that is not a performed `XOR` answers the same in two engines that agree on the public fields, and
leaves them in agreement on these. -/
theorem exec_public {i : Instr} {s s' t t' : State} (h : s.SamePublic s') (hx : exec i s = .next t)
    (hx' : exec i s' = .next t') (hi : ∀ n d, i = .xor n d → refusalStatus s.rdy i ≠ none) :
    t'.pending = t.pending ∧ t.SamePublic t' := by
  have hrdy := h.rdy
  cases href : refusalStatus s.rdy i with
  | some e =>
    rw [exec_of_refusalStatus href] at hx
    rw [exec_of_refusalStatus (hrdy ▸ href)] at hx'
    cases hx
    cases hx'
    exact ⟨rfl, h.refuse e⟩
  | none =>
    cases i with
    | new =>
      cases hx
      cases hx'
      exact ⟨rfl, rfl, rfl, rfl, rfl, rfl, h.err⟩
    | keyb b =>
      have hr := empty_of_not_refused href (.inl ⟨b, rfl⟩)
      rw [exec_keyb_of_empty b hr] at hx
      rw [exec_keyb_of_empty b (hrdy.trans hr)] at hx'
      cases hx
      cases hx'
      refine ⟨rfl, ?_⟩
      constructor <;> simp [State.pushKey_klen, h.klen, h.ivlen, h.ctr, h.rdy, h.dir, h.err]
    | ivb b =>
      have hr := empty_of_not_refused href (.inr (.inl ⟨b, rfl⟩))
      rw [exec_ivb_of_empty b hr] at hx
      rw [exec_ivb_of_empty b (hrdy.trans hr)] at hx'
      cases hx
      cases hx'
      refine ⟨rfl, ?_⟩
      constructor <;> simp [State.pushIv_ivlen, h.klen, h.ivlen, h.ctr, h.rdy, h.dir, h.err]
    | init m =>
      have hr := empty_of_not_refused href (.inr (.inr ⟨m, rfl⟩))
      rw [exec_init_of_empty m hr] at hx
      rw [exec_init_of_empty m (hrdy.trans hr)] at hx'
      cases hx
      cases hx'
      refine ⟨rfl, ?_⟩
      constructor <;> simp [h.klen, h.ivlen, h.err]
    | xor n d => exact absurd href (hi n d rfl)
    | stat =>
      cases hx
      cases hx'
      refine ⟨?_, h.klen, h.ivlen, h.ctr, h.rdy, h.dir, h.err⟩
      rw [State.answer_pending, State.answer_pending, h.statw]
    | reserved0 x => cases href
    | reserved7 x => cases href
    | reserved8F x => cases href

/-- A word that is an instruction is performed as that instruction (R100). -/
theorem perform_of_decode {cw : PortWord} {i : Instr} {s : State} (hd : decode cw = .ok i) :
    perform cw s = exec i s := by
  simp only [perform, hd]

/-- A word that is no instruction is refused with `ERR_ARG` (R97, R243). -/
theorem perform_of_reject {cw : PortWord} {r : Reject} {s : State} (hd : decode cw = .error r) :
    perform cw s = .next (s.refuse .errArg) := by
  simp only [perform, hd]

/-- Settles O56: a word that is no instruction is refused, any other is an instruction that is no performed `XOR`. -/
theorem responsesHideSecretState : Obligations.ResponsesHideSecretState := by
  intro cw s s' t t' hklen hivlen hctr hrdy hdir herr hx hx' hxor
  have h : s.SamePublic s' := ⟨hklen, hivlen, hctr, hrdy, hdir, herr⟩
  suffices hs : t'.pending = t.pending ∧ t.SamePublic t' by
    obtain ⟨hp, hq⟩ := hs
    exact ⟨hp, hq.klen, hq.ivlen, hq.ctr, hq.rdy, hq.dir, hq.err⟩
  cases hd : decode cw with
  | error r =>
    rw [perform_of_reject hd] at hx hx'
    cases hx
    cases hx'
    exact ⟨rfl, h.refuse _⟩
  | ok i =>
    rw [perform_of_decode hd] at hx hx'
    refine exec_public h hx hx' fun n d hi href => ?_
    subst hi
    obtain ⟨hn, hr⟩ := xor_of_not_refused href
    obtain hr' | hn' := hxor n d hd
    · cases hr'.symm.trans hr
    · exact hn' ((countLegal_iff n).mp hn)

/-! ### The status word, reset, idle edges, and unwritten entries -/

/-- The status word as a number: each field at its position, bits 3 and 31 to 27 zero (R35). -/
theorem State.statw_toNat (s : State) : s.statw.toNat =
    s.rdy.toNat + 2 * s.dir.bit.toNat + 4 * s.err.toNat + 2 ^ 4 * s.klen.toNat + 2 ^ 10 * s.ivlen.toNat +
      2 ^ 16 * s.ctr.toNat := by
  simp only [State.statw, toNat_append_eq, BitVec.toNat_ofBool, BitVec.toNat_ofNat]
  omega

/-- Settles O41. -/
theorem statReturnsStatusWord : Obligations.StatReturnsStatusWord := fun s =>
  ⟨s.answer s.statw, s.statw, rfl, s.sameEngine_answer _, ⟨rfl, rfl, rfl⟩, s.statw_toNat⟩

/-- Settles O12: the buffers hold 32 zero bytes, the tables no entry, and the other fields stand in the reset state. -/
theorem resetStateValues : Obligations.ResetStateValues := by
  have hbuf (k : Fin 32) : (Vector.replicate 32 0x00#8)[k.val] = 0x00#8 := Vector.getElem_replicate _
  exact ⟨fun k => ⟨hbuf k, hbuf k⟩, rfl, rfl, rfl, rfl, rfl, rfl, fun j => ⟨Memory.read_nil j, Memory.read_nil j⟩,
    rfl, rfl, rfl⟩

/-- An edge on an idle port with no command takes its inputs off and does nothing else (R91). -/
theorem step_idle {s : State} (hrst : s.edgePins.rst = false) (hval : s.edgePins.cmdValid = false)
    (hport : s.port = .ready) : step s = .next s.dropEdge := by
  simp [step, clockEdge, hrst, hval, hport]

/-- Settles O14. -/
theorem idleEngineDoesNothing : Obligations.IdleEngineDoesNothing := fun s hrst hval hport =>
  ⟨s.dropEdge, step_idle hrst hval hport, s.sameEngine_dropEdge, hport, rfl⟩

/-- A generator step whose active table holds no entry stops at its first read, `A[j - 3]` (R195, R40). -/
theorem State.genStep_of_unwritten {s : State} (h : ∀ j, Memory.read (s.table (activeTable s.ctr)) j = none) :
    s.genStep = .error (.unwrittenEntry (activeTable s.ctr) (sub1024 (writeIndex s.ctr) 3).toNat) := by
  have hread (j : Index) :
      s.readEntry (activeTable s.ctr) j = .error (.unwrittenEntry (activeTable s.ctr) j.toNat) := by
    simp [State.readEntry, h]
  simp only [State.genStep, generate, hread]
  rfl

/-- Settles O35: whichever table is active, its first read finds no entry. -/
theorem xorOnUnwrittenTablesFaults : Obligations.XorOnUnwrittenTablesFaults := by
  intro n d s hn1 hn4 hr hp hq
  have htable (A : TableName) (j : Nat) : Memory.read (s.table A) j = none := by
    cases A
    · exact hp j
    · exact hq j
  exact ⟨_, _, exec_xor_of_fault ((countLegal_iff n).mpr ⟨hn1, hn4⟩) hr (State.genStep_of_unwritten (htable _))⟩

end Sys2Proof.Machine

/-! PROOFS. Command words and the port: decoding and encoding, the decode procedure, and acceptance, waiting and delivery
(30_encoding.md). -/

namespace Sys2Proof

/-! ### Decoding a word by its opcode (R93, R95) -/

/-- A word of reserved row 0x0 carries its other 36 bits (R242). -/
theorem decode_of_op_zero {cw : PortWord} (h : opField cw = 0#4) :
    decode cw = .ok (.reserved0 (cw.extractLsb' 0 36)) := by
  simp [decode, h]

theorem decode_of_op_new {cw : PortWord} (h : opField cw = 1#4) :
    decode cw = if nField cw = 0#4 ∧ dField cw = 0#32 then .ok .new else .error .newField := by
  simp [decode, h]

theorem decode_of_op_keyb {cw : PortWord} (h : opField cw = 2#4) :
    decode cw = if nField cw = 0#4 ∧ (dField cw).extractLsb' 8 24 = 0#24
      then .ok (.keyb ((dField cw).extractLsb' 0 8)) else .error .keybField := by
  simp [decode, h]

theorem decode_of_op_ivb {cw : PortWord} (h : opField cw = 3#4) :
    decode cw = if nField cw = 0#4 ∧ (dField cw).extractLsb' 8 24 = 0#24
      then .ok (.ivb ((dField cw).extractLsb' 0 8)) else .error .ivbField := by
  simp [decode, h]

theorem decode_of_op_init {cw : PortWord} (h : opField cw = 4#4) :
    decode cw = if nField cw = 0#4 ∧ (dField cw).extractLsb' 1 31 = 0#31
      then .ok (.init (Mode.ofBit ((dField cw).getLsbD 0))) else .error .initField := by
  simp [decode, h]

theorem decode_of_op_xor {cw : PortWord} (h : opField cw = 5#4) :
    decode cw = .ok (.xor (nField cw) (dField cw)) := by
  simp [decode, h]

theorem decode_of_op_stat {cw : PortWord} (h : opField cw = 6#4) :
    decode cw = if nField cw = 0#4 ∧ dField cw = 0#32 then .ok .stat else .error .statField := by
  simp [decode, h]

/-- A word of reserved row 0x7 carries its other 36 bits (R242). -/
theorem decode_of_op_seven {cw : PortWord} (h : opField cw = 7#4) :
    decode cw = .ok (.reserved7 (cw.extractLsb' 0 36)) := by
  simp [decode, h]

/-- A word with bit 39 set lies in the third reserved row, whatever its other 39 bits are (R242). -/
theorem decode_of_op_ge_eight {cw : PortWord} (h : 8 ≤ (opField cw).toNat) :
    decode cw = .ok (.reserved8F (cw.extractLsb' 0 39)) := by
  have hne (k : BitVec 4) (hk : k.toNat < 8) : opField cw ≠ k := by
    rintro rfl
    omega
  simp [decode, hne]

/-! ### Decoding the word of an instruction (R93, R95, R101 to R104) -/

/-- The opcode of a word that is written as `{op, x}`. -/
theorem opField_append_rest (a : BitVec 4) (x : BitVec 36) : opField (a ++ x) = a :=
  BitVec.extractLsb'_append_eq_left

/-- The opcode of a word with bit 39 set. -/
theorem opField_top_bit (x : BitVec 39) : 8 ≤ (opField (1#1 ++ x)).toNat := by
  have h := Machine.toNat_append_eq 1#1 x
  rw [opField_toNat, h]
  simp
  omega

theorem decode_encode (i : Instr) : decode (encode i) = .ok i := by
  cases i with
  | new => rfl
  | keyb b => rw [encode, decode_append, extract_byte, extract_above_byte]; rfl
  | ivb b => rw [encode, decode_append, extract_byte, extract_above_byte]; rfl
  | init m => cases m <;> rfl
  | xor n d => rw [encode, decode_append]; rfl
  | stat => rfl
  | reserved0 x =>
    rw [encode, decode_of_op_zero (opField_append_rest 0#4 x), BitVec.extractLsb'_append_eq_right]
  | reserved7 x =>
    rw [encode, decode_of_op_seven (opField_append_rest 7#4 x), BitVec.extractLsb'_append_eq_right]
  | reserved8F x => rw [encode, decode_of_op_ge_eight (opField_top_bit x), BitVec.extractLsb'_append_eq_right]

/-- Settles O2: one case per instruction, each by the fields of its word. -/
theorem decodeEncodeGivesInstructionBack : Obligations.DecodeEncodeGivesInstructionBack := decode_encode

/-- Settles O3: one case per opcode, the allowed words being those whose unused fields are 0. -/
theorem encodeDecodeGivesWordBack : Obligations.EncodeDecodeGivesWordBack := fun _ _ => encode_of_decode

/-- Settles O1: each of the ten words is the word of its instruction. -/
theorem documentedWordsDecode : Obligations.DocumentedWordsDecode :=
  ⟨decode_encode .new, decode_encode (.keyb 0x55#8), decode_encode (.ivb 0xA0#8), decode_encode (.init .encrypt),
    decode_encode (.init .decrypt), decode_encode (.xor 4#4 0x6C6C6548#32), decode_encode .stat,
    decode_encode (.reserved0 0#36), decode_encode (.reserved7 1#36), decode_encode (.reserved8F 0x7300001234#39)⟩

end Sys2Proof

namespace Sys2Proof.Machine

/-! ### The decode procedure on numbers (R100) -/

/-- A field is 0 exactly when its number is. -/
theorem eq_zero_iff_toNat {w : Nat} (x : BitVec w) : x = 0#w ↔ x.toNat = 0 := by
  rw [← BitVec.toNat_inj, BitVec.toNat_ofNat, Nat.zero_mod]

/-- The bits of a word from `k` on are 0 exactly when the word is below `2 ^ k`. -/
theorem upper_eq_zero_iff (d : Word) {k len : Nat} (hk : k + len = 32) :
    d.extractLsb' k len = 0#len ↔ d.toNat / 2 ^ k = 0 := by
  have hd : d.toNat / 2 ^ k < 2 ^ len := by
    rw [Nat.div_lt_iff_lt_mul (Nat.two_pow_pos k), ← Nat.pow_add, Nat.add_comm, hk]
    exact d.isLt
  rw [eq_zero_iff_toNat, BitVec.extractLsb'_toNat, Nat.shiftRight_eq_div_pow, Nat.mod_eq_of_lt hd]

/-- The mode of a data field that is 0 or 1 (R103). -/
theorem ofBit_of_upper_zero {d : Word} (hd : d.toNat / 2 = 0) :
    Mode.ofBit (d.getLsbD 0) = if d.toNat = 0 then .encrypt else .decrypt := by
  have h01 : d.toNat = 0 ∨ d.toNat = 1 := by omega
  obtain h | h := h01 <;> simp [Mode.ofBit, BitVec.getLsbD, h]

/-- A word of a checked opcode: refused with `ERR_ARG` where a field is not allowed, else its instruction. -/
theorem perform_of_checked {cw : PortWord} {s : State} {fields bad : Prop} [Decidable fields] [Decidable bad]
    {i : Instr} {r : Reject} (hd : decode cw = if fields then .ok i else .error r) (hbad : bad ↔ ¬ fields) :
    perform cw s = if bad then .next (s.refuse .errArg) else exec i s := by
  by_cases hf : fields
  · rw [if_pos hf] at hd
    rw [if_neg (hbad.not_left.mpr hf), perform_of_decode hd]
  · rw [if_neg hf] at hd
    rw [if_pos (hbad.mpr hf), perform_of_reject hd]

/-- A command that is legal only while `RDY` is 0: line 3 of R100. -/
theorem exec_eq_ite_live {i : Instr} (s : State) (hi : refusalStatus true i = some .errSeq) :
    exec i s = if s.rdy = true then .next (s.refuse .errSeq) else exec i s := by
  split
  · exact exec_of_refusalStatus (by rwa [‹s.rdy = true›])
  · rfl

/-- `XOR`: the count first, then `RDY` (R245). -/
theorem exec_xor_eq_ite (n : BitVec 4) (d : Word) (s : State) :
    exec (.xor n d) s =
      if n.toNat = 0 ∨ 4 < n.toNat then .next (s.refuse .errArg)
      else if s.rdy = false then .next (s.refuse .errSeq)
      else exec (.xor n d) s := by
  have hn := countLegal_iff n
  split_ifs with hbad hr
  · have hl : countLegal n = false := by
      rw [Bool.eq_false_iff, Ne, hn]
      omega
    exact exec_of_refusalStatus (by simp [refusalStatus, hl])
  · have hl : countLegal n = true := hn.mpr (by omega)
    exact exec_of_refusalStatus (by simp [refusalStatus, hl, hr])
  · rfl

/-- The opcodes of R95: reserved, or one of the six commands. -/
theorem op_cases (a : BitVec 4) : (a.toNat = 0 ∨ 7 ≤ a.toNat) ∨ a = 1#4 ∨ a = 2#4 ∨ a = 3#4 ∨ a = 4#4 ∨ a = 5#4 ∨
    a = 6#4 := by
  revert a; decide

/-- Line 1 of R100: a reserved opcode is refused with `ERR_OP`. -/
theorem perform_of_reserved {cw : PortWord} (s : State) (h : (opField cw).toNat = 0 ∨ 7 ≤ (opField cw).toNat) :
    perform cw s = .next (s.refuse .errOp) := by
  have hcases : opField cw = 0#4 ∨ opField cw = 7#4 ∨ 8 ≤ (opField cw).toNat := by
    simp only [BitVec.toNat_eq, BitVec.toNat_ofNat]
    omega
  obtain h0 | h7 | h8 := hcases
  · rw [perform_of_decode (decode_of_op_zero h0)]; rfl
  · rw [perform_of_decode (decode_of_op_seven h7)]; rfl
  · rw [perform_of_decode (decode_of_op_ge_eight h8)]; rfl

/-- `KEYB`, `IVB` and `INIT` ask for a count field of 0 and a data field whose bits from `k` on are 0 (R97). -/
theorem upper_nonzero_iff (n : BitVec 4) (d : Word) {k len : Nat} (hk : k + len = 32) :
    (n.toNat ≠ 0 ∨ d.toNat / 2 ^ k ≠ 0) ↔ ¬ (n = 0#4 ∧ d.extractLsb' k len = 0#len) := by
  rw [upper_eq_zero_iff d hk, eq_zero_iff_toNat, not_and_or]

/-- `NEW` and `STAT` ask for a count field and a data field of 0 (R97). -/
theorem fields_nonzero_iff (n : BitVec 4) (d : Word) : (n.toNat ≠ 0 ∨ d.toNat ≠ 0) ↔ ¬ (n = 0#4 ∧ d = 0#32) := by
  rw [eq_zero_iff_toNat, eq_zero_iff_toNat, not_and_or]

/-- The low byte of a word (R102). -/
theorem low_byte_eq (d : Word) : d.extractLsb' 0 8 = BitVec.ofNat 8 d.toNat := by
  rw [BitVec.ofNat_toNat, BitVec.setWidth_eq_extractLsb' (by decide)]

theorem perform_of_op_new {cw : PortWord} (s : State) (h : opField cw = 1#4) :
    perform cw s = if (nField cw).toNat ≠ 0 ∨ (dField cw).toNat ≠ 0 then .next (s.refuse .errArg) else exec .new s :=
  perform_of_checked (decode_of_op_new h) (fields_nonzero_iff _ _)

theorem perform_of_op_stat {cw : PortWord} (s : State) (h : opField cw = 6#4) :
    perform cw s = if (nField cw).toNat ≠ 0 ∨ (dField cw).toNat ≠ 0 then .next (s.refuse .errArg) else exec .stat s :=
  perform_of_checked (decode_of_op_stat h) (fields_nonzero_iff _ _)

theorem perform_of_op_keyb {cw : PortWord} (s : State) (h : opField cw = 2#4) :
    perform cw s =
      if (nField cw).toNat ≠ 0 ∨ (dField cw).toNat / 2 ^ 8 ≠ 0 then .next (s.refuse .errArg)
      else if s.rdy = true then .next (s.refuse .errSeq)
      else exec (.keyb (BitVec.ofNat 8 (dField cw).toNat)) s := by
  rw [perform_of_checked (decode_of_op_keyb h) (upper_nonzero_iff _ _ rfl), low_byte_eq, ← exec_eq_ite_live s rfl]

theorem perform_of_op_ivb {cw : PortWord} (s : State) (h : opField cw = 3#4) :
    perform cw s =
      if (nField cw).toNat ≠ 0 ∨ (dField cw).toNat / 2 ^ 8 ≠ 0 then .next (s.refuse .errArg)
      else if s.rdy = true then .next (s.refuse .errSeq)
      else exec (.ivb (BitVec.ofNat 8 (dField cw).toNat)) s := by
  rw [perform_of_checked (decode_of_op_ivb h) (upper_nonzero_iff _ _ rfl), low_byte_eq, ← exec_eq_ite_live s rfl]

theorem perform_of_op_init {cw : PortWord} (s : State) (h : opField cw = 4#4) :
    perform cw s =
      if (nField cw).toNat ≠ 0 ∨ (dField cw).toNat / 2 ≠ 0 then .next (s.refuse .errArg)
      else if s.rdy = true then .next (s.refuse .errSeq)
      else exec (.init (if (dField cw).toNat = 0 then .encrypt else .decrypt)) s := by
  rw [← exec_eq_ite_live s rfl, perform_of_checked (decode_of_op_init h) (upper_nonzero_iff (k := 1) _ _ rfl), pow_one]
  split
  · rfl
  · rw [ofBit_of_upper_zero (by omega)]

theorem perform_of_op_xor {cw : PortWord} (s : State) (h : opField cw = 5#4) :
    perform cw s =
      if (nField cw).toNat = 0 ∨ 4 < (nField cw).toNat then .next (s.refuse .errArg)
      else if s.rdy = false then .next (s.refuse .errSeq)
      else exec (.xor (nField cw) (dField cw)) s := by
  rw [perform_of_decode (decode_of_op_xor h), ← exec_xor_eq_ite]

/-- Settles O4: the opcode selects the lines of R100 that can apply. -/
theorem commandWordsFollowDecodeProcedure : Obligations.CommandWordsFollowDecodeProcedure := by
  intro cw s
  simp only [← opField_toNat, ← nField_toNat, ← dField_toNat]
  obtain h | h | h | h | h | h | h := op_cases (opField cw)
  · rw [if_pos h]
    exact perform_of_reserved s h
  · simpa [h] using perform_of_op_new s h
  · simpa [h] using perform_of_op_keyb s h
  · simpa [h] using perform_of_op_ivb s h
  · simpa [h] using perform_of_op_init s h
  · simpa [h] using perform_of_op_xor s h
  · simpa [h] using perform_of_op_stat s h

/-! ### Acceptance (R91, R92) -/

/-- No command is in flight exactly when the port is ready. -/
theorem State.pending_eq_none_iff {s : State} : s.pending = none ↔ s.port = .ready := by
  unfold State.pending
  split <;> simp_all

/-- A response is pending exactly when its command is in flight. -/
theorem State.pending_eq_some_iff {s : State} {rsp : Response} :
    s.pending = some rsp ↔ ∃ wait, s.port = .inFlight wait rsp := by
  unfold State.pending
  split <;> simp_all

theorem State.cmdReady_iff {s : State} {rst : Bool} : s.cmdReady rst = true ↔ rst = false ∧ s.pending = none := by
  simp [State.cmdReady, State.pending_eq_none_iff]

theorem State.accepts_eq_some_iff {s : State} {e : Pins} {cw : PortWord} :
    s.accepts e = some cw ↔ e.cmdValid = true ∧ s.cmdReady e.rst = true ∧ e.cmdWord = cw := by
  simp [State.accepts, and_assoc]

/-- Settles O17. -/
theorem acceptanceNeedsValidAndReady : Obligations.AcceptanceNeedsValidAndReady := fun _ _ _ =>
  ⟨State.accepts_eq_some_iff, State.cmdReady_iff⟩

theorem State.accepts_of_pending {s : State} {e : Pins} {rsp : Response} (h : s.pending = some rsp) :
    s.accepts e = none := by
  simp [State.accepts, State.cmdReady, ← State.pending_eq_none_iff, h]

theorem State.accepts_of_not_valid {s : State} {e : Pins} (h : e.cmdValid = false) : s.accepts e = none := by
  simp [State.accepts, h]

/-- An edge that accepts a word performs it, on the state with that edge's inputs taken off (log 1, log 12). -/
theorem step_of_accepts {s : State} {cw : PortWord} (h : s.accepts s.edgePins = some cw) :
    step s = perform cw s.dropEdge := by
  obtain ⟨hval, hready, rfl⟩ := State.accepts_eq_some_iff.mp h
  obtain ⟨hrst, hnone⟩ := State.cmdReady_iff.mp hready
  have hport := State.pending_eq_none_iff.mp hnone
  simp [step, clockEdge, hrst, hport, hval]

/-- Settles O15. -/
theorem stepRunsDecodedInstruction : Obligations.StepRunsDecodedInstruction := fun _ _ hacc hd =>
  (step_of_accepts hacc).trans (perform_of_decode hd)

/-- Settles O16. -/
theorem stepRefusesMalformedWord : Obligations.StepRefusesMalformedWord := fun _ _ hacc hd =>
  (step_of_accepts hacc).trans (perform_of_reject hd)

/-! ### From acceptance to delivery (R91, R92) -/

/-- A response is valid exactly when its wait is over. -/
theorem State.port_of_valid {s : State} {rsp : Response} (hvalid : s.rspValid = true) (hp : s.pending = some rsp) :
    s.port = .inFlight 0 rsp := by
  obtain ⟨wait, hport⟩ := State.pending_eq_some_iff.mp hp
  cases wait with
  | zero => exact hport
  | succ wait => simp [State.rspValid, hport] at hvalid

theorem State.rspValid_of_port {s : State} {rsp : Response} (hport : s.port = .inFlight 0 rsp) : s.rspValid = true := by
  simp [State.rspValid, hport]

/-- The edge at which a valid response is not taken. -/
theorem step_hold {s : State} {rsp : Response} (hrst : s.edgePins.rst = false) (hport : s.port = .inFlight 0 rsp)
    (hready : s.edgePins.rspReady = false) : step s = .next s.dropEdge := by
  simp [step, clockEdge, hrst, hport, hready]

/-- The edge at which a valid response is taken. -/
theorem step_deliver {s : State} {rsp : Response} (hrst : s.edgePins.rst = false) (hport : s.port = .inFlight 0 rsp)
    (hready : s.edgePins.rspReady = true) : step s = .next s.dropEdge.deliver := by
  simp [step, clockEdge, hrst, hport, hready]

/-- An edge at which the response is not valid yet. -/
theorem step_wait {s : State} {wait : Nat} {rsp : Response} (hrst : s.edgePins.rst = false)
    (hport : s.port = .inFlight (wait + 1) rsp) : step s = .next { s.dropEdge with port := .inFlight wait rsp } := by
  simp [step, clockEdge, hrst, hport]

theorem State.sameEngine_dropEdge_deliver (s : State) : s.SameEngine s.dropEdge.deliver :=
  s.sameEngine_dropEdge.trans s.dropEdge.sameEngine_deliver

theorem State.delivered_dropEdge_deliver {s : State} {rsp : Response} (hp : s.pending = some rsp) :
    s.dropEdge.deliver.delivered = s.delivered ++ [rsp] := by
  simp [hp]

/-- Settles O18. -/
theorem responseIsHeldUntilDelivered : Obligations.ResponseIsHeldUntilDelivered := by
  intro s rsp hrst hvalid hp
  have hport := State.port_of_valid hvalid hp
  constructor
  · intro hready
    exact ⟨_, step_hold hrst hport hready, s.sameEngine_dropEdge, hvalid, rfl, rfl⟩
  · intro hready
    exact ⟨_, step_deliver hrst hport hready, s.sameEngine_dropEdge_deliver, by simp [State.rspValid],
      State.cmdReady_iff.mpr ⟨rfl, s.dropEdge.deliver_pending⟩, State.delivered_dropEdge_deliver hp⟩

/-- Settles O19: the edge waits, holds the response, or delivers it. -/
theorem busyPortAcceptsNothing : Obligations.BusyPortAcceptsNothing := by
  intro s rsp hrst hp
  refine ⟨State.accepts_of_pending hp, ?_⟩
  obtain ⟨wait, hport⟩ := State.pending_eq_some_iff.mp hp
  cases wait with
  | succ wait =>
    exact ⟨_, step_wait hrst hport, s.sameEngine_dropEdge.trans (s.dropEdge.sameEngine_port _), .inl ⟨rfl, rfl⟩⟩
  | zero =>
    cases hready : s.edgePins.rspReady with
    | false => exact ⟨_, step_hold hrst hport hready, s.sameEngine_dropEdge, .inl ⟨hp, rfl⟩⟩
    | true =>
      exact ⟨_, step_deliver hrst hport hready, s.sameEngine_dropEdge_deliver,
        .inr ⟨State.rspValid_of_port hport, rfl, s.dropEdge.deliver_pending, State.delivered_dropEdge_deliver hp⟩⟩

/-! ### What a performed word leaves, and the lanes `XOR` reads -/

/-- A command that is performed leaves `ERR` (R34). -/
theorem Effect.err_of_ok {s t : State} {i : Instr} {rsp : Response} (he : Effect s t i) (hp : t.pending = some rsp)
    (hok : rsp.st = .ok) : t.err = s.err := by
  cases he with
  | refused _ e hne ht =>
    subst ht
    cases hp
    exact absurd hok hne
  | new ht => rw [ht]; rfl
  | keyb b _ ht => rw [ht, State.answer_err, State.pushKey_err]
  | ivb b _ ht => rw [ht, State.answer_err, State.pushIv_err]
  | init m _ ht => rw [ht, State.respond_err, State.create_err]
  | xor _ _ _ u _ _ hg ht =>
    obtain ⟨w, rfl⟩ := State.genStep_cases hg
    rw [ht, State.respond_err, State.writeEntry_err]
  | stat ht => rw [ht]; rfl

/-- A word that is performed leaves `ERR` (R34). -/
theorem perform_err_of_ok {cw : PortWord} {s t : State} {rsp : Response} (hx : perform cw s = .next t)
    (hp : t.pending = some rsp) (hok : rsp.st = .ok) : t.err = s.err := by
  obtain ⟨i, -, he⟩ | ⟨r, -, rfl⟩ := perform_cases hx
  · exact he.err_of_ok hp hok
  · cases hp
    cases hok

/-- Settles O46: under the invariant the tables of a live engine are complete, so its step finds every entry. -/
theorem everyCommandWordIsAnswered : Obligations.EveryCommandWordIsAnswered := by
  intro cw s hs
  obtain ⟨t, hx⟩ := perform_answers cw hs.live_complete
  obtain ⟨rsp, ha⟩ := perform_answered hx
  exact ⟨t, rsp, hx, ha, perform_err_of_ok hx ha.pending⟩

/-- Bit `i` of the mask is set in the lanes below `n` (R210). -/
theorem getLsbD_laneMask (n : BitVec 4) {i : Nat} (hi : i < 32) :
    (laneMask n).getLsbD i = decide (i < 8 * n.toNat) := by
  rw [laneMask, BitVec.getLsbD_ofNat, Nat.testBit_two_pow_sub_one, decide_eq_true hi, Bool.true_and]

/-- Bit `i` of a word lies in its byte `i / 8` (R101, R129). -/
theorem getLsbD_eq_byteOf (w : Word) {i : Nat} (hi : i < 32) :
    w.getLsbD i = (byteOf ⟨i / 8, by omega⟩ w).getLsbD (i % 8) := by
  rw [byteOf, BitVec.getLsbD_extractLsb', Nat.div_add_mod, decide_eq_true (Nat.mod_lt i (by decide)), Bool.true_and]

/-- The output lanes depend on the data lanes below `n` only (R101, R210). -/
theorem xorLanes_congr {n : BitVec 4} {d d' : Word} (ks : Word)
    (h : ∀ k : Fin 4, k.val < n.toNat → byteOf k d = byteOf k d') : xorLanes n d ks = xorLanes n d' ks := by
  apply BitVec.eq_of_getLsbD_eq
  intro i hi
  simp only [xorLanes, BitVec.getLsbD_and, BitVec.getLsbD_xor, getLsbD_laneMask n hi]
  by_cases hn : i < 8 * n.toNat
  · rw [getLsbD_eq_byteOf d hi, getLsbD_eq_byteOf d' hi, h _ (show i / 8 < n.toNat by omega)]
  · simp [hn]

/-- Settles O33: an `XOR` is refused whatever its data are, and a performed one shows them in the lanes below `n`. -/
theorem upperDataLanesAreIgnored : Obligations.UpperDataLanesAreIgnored := by
  intro n d d' s t _ _ hlanes hx
  cases href : refusalStatus s.rdy (.xor n d) with
  | some e =>
    rw [exec_of_refusalStatus href] at hx
    cases hx
    exact ⟨_, exec_of_refusalStatus (i := .xor n d') href, .refl _, rfl⟩
  | none =>
    obtain ⟨hn, hr⟩ := xor_of_not_refused href
    obtain ⟨ks, u, hg, rfl⟩ := exec_xor_performed href hx
    refine ⟨_, exec_xor_of_step hn hr hg, (u.sameEngine_respond _ _).symm.trans (u.sameEngine_respond _ _), ?_⟩
    rw [State.respond_pending, State.respond_pending, xorLanes_congr ks hlanes]

/-! ### Words on two engines that agree (R220) -/

/-- An instruction does the same in two engines that agree on the ten fields, with the same response. -/
theorem exec_sameEngine {i : Instr} {s s' t : State} (h : s.SameEngine s') (hx : exec i s = .next t) :
    ∃ t', exec i s' = .next t' ∧ t.SameEngine t' ∧ t'.pending = t.pending := by
  obtain ⟨t', hx', he⟩ :=
    exec_congr (s' := s') ⟨h.key, h.iv, h.klen, h.ivlen, h.p, h.q, h.ctr, h.rdy⟩ hx
  have hd := he.datapath
  have hstat : s'.statw = s.statw := State.SamePublic.statw ⟨h.klen, h.ivlen, h.ctr, h.rdy, h.dir, h.err⟩
  exact ⟨t', hx', ⟨hd.key, hd.iv, hd.klen, hd.ivlen, hd.p, hd.q, hd.ctr, hd.rdy, he.dir h.dir, he.err h.err⟩,
    he.response fun _ => hstat⟩

/-- A command word does the same in two engines that agree on the ten fields, with the same response. -/
theorem perform_sameEngine {cw : PortWord} {s s' t : State} (h : s.SameEngine s') (hx : perform cw s = .next t) :
    ∃ t', perform cw s' = .next t' ∧ t.SameEngine t' ∧ t'.pending = t.pending := by
  cases hd : decode cw with
  | ok i =>
    rw [perform_of_decode hd] at hx ⊢
    exact exec_sameEngine h hx
  | error r =>
    rw [perform_of_reject hd] at hx ⊢
    cases hx
    exact ⟨_, rfl, ⟨h.key, h.iv, h.klen, h.ivlen, h.p, h.q, h.ctr, h.rdy, h.dir, rfl⟩, rfl⟩

theorem serve_of_perform {cw : PortWord} {s t : State} (hx : perform cw s = .next t) :
    serve cw s = .next t.deliver := by
  simp only [serve, hx]

theorem serveAll_singleton {cw : PortWord} {s t : State} (hx : serve cw s = .next t) : serveAll [cw] s = .next t := by
  simp only [serveAll, hx]

/-! ### The port and the sequence of accepted words (R92, R281) -/

/-- The engine `s` at the port stands where `v` does that has served the same words one by one: the same ten fields, and
the responses delivered or in flight are those `v` has given. -/
structure State.Tracks (s v : State) : Prop where
  engine : v.SameEngine s
  responses : s.delivered ++ s.pending.toList = v.delivered

/-- An idle engine stands where it stands. -/
theorem State.tracks_self {s : State} (hport : s.port = .ready) : s.Tracks s where
  engine := .refl s
  responses := by simp [State.pending_eq_none_iff.mpr hport]

/-- A step that keeps the ten fields and the responses keeps the correspondence. -/
theorem State.Tracks.of_kept {s t v : State} (h : s.Tracks v) (ht : s.SameEngine t)
    (hr : t.delivered ++ t.pending.toList = s.delivered ++ s.pending.toList) : t.Tracks v :=
  ⟨h.engine.trans ht, hr.trans h.responses⟩

/-- The same word performed at an idle port, and served where the words are served one by one. -/
theorem State.Tracks.after_perform {s t v : State} {cw : PortWord} (h : s.Tracks v) (hnone : s.pending = none)
    (hx : perform cw s.dropEdge = .next t) : ∃ u, serve cw v = .next u ∧ t.Tracks u := by
  obtain ⟨t', hx', hsame, hpend⟩ := perform_sameEngine (h.engine.trans s.sameEngine_dropEdge).symm hx
  obtain ⟨rsp, ht⟩ := perform_answered hx
  obtain ⟨rsp', ht'⟩ := perform_answered hx'
  have hdel : s.delivered = v.delivered := by simpa [hnone] using h.responses
  refine ⟨_, serve_of_perform hx', t'.sameEngine_deliver.symm.trans hsame.symm, ?_⟩
  rw [State.deliver_delivered, hpend, ht.delivered, ht'.delivered, State.dropEdge_delivered, hdel]

/-- One edge without reset: the words it accepts, served one by one, keep the correspondence. -/
theorem State.Tracks.after_step {s t v : State} (h : s.Tracks v) (hrst : s.edgePins.rst = false) (hx : step s = .next t) :
    ∃ u, serveAll (s.accepts s.edgePins).toList v = .next u ∧ t.Tracks u := by
  cases hp : s.pending with
  | some rsp =>
    obtain ⟨hacc, t', hx', hsame, hrsp⟩ := busyPortAcceptsNothing s rsp hrst hp
    cases hx.symm.trans hx'
    rw [hacc]
    refine ⟨v, rfl, h.of_kept hsame ?_⟩
    obtain ⟨hp', hdel⟩ | ⟨-, -, hp', hdel⟩ := hrsp <;> simp [hp, hp', hdel]
  | none =>
    cases hacc : s.accepts s.edgePins with
    | some cw =>
      obtain ⟨u, hu, ht⟩ := h.after_perform hp ((step_of_accepts hacc).symm.trans hx)
      exact ⟨u, serveAll_singleton hu, ht⟩
    | none =>
      have hport := State.pending_eq_none_iff.mp hp
      have hval : s.edgePins.cmdValid = false := by
        by_contra hval
        rw [State.accepts_of_valid hrst hport (by simpa using hval)] at hacc
        cases hacc
      rw [step_idle hrst hval hport] at hx
      cases hx
      exact ⟨v, rfl, h.of_kept s.sameEngine_dropEdge rfl⟩

/-- A step takes one edge's inputs off the list (log 1). -/
theorem step_pins {s t : State} (hx : step s = .next t) : t.pins = s.pins.tail := by
  obtain ⟨-, rfl⟩ | ⟨-, -, -, rfl⟩ | ⟨-, -, -, hp⟩ | ⟨_, -, -, -, rfl⟩ | ⟨_, -, -, -, rfl⟩ | ⟨_, _, -, -, rfl⟩ :=
    step_cases hx
  · rfl
  · rfl
  · obtain ⟨rsp, ha⟩ := perform_answered hp
    exact ha.pins
  · rfl
  · exact s.dropEdge.deliver_pins
  · rfl

/-- No reset on the next edge when the host drives none on the coming ones. -/
theorem State.edgePins_rst {s : State} {k : Nat} (h : ∀ e ∈ s.pins.take (k + 1), e.rst = false) :
    s.edgePins.rst = false ∧ ∀ e ∈ s.pins.tail.take k, e.rst = false := by
  unfold State.edgePins
  cases hp : s.pins with
  | nil => simp [Pins.quiet]
  | cons e es =>
    rw [hp, List.take_succ_cons, List.forall_mem_cons] at h
    exact h

theorem acceptedWords_succ {s t : State} (k : Nat) (hx : step s = .next t) :
    acceptedWords (k + 1) s = (s.accepts s.edgePins).toList ++ acceptedWords k t := by
  simp only [step] at hx
  simp only [acceptedWords, hx]

/-- Over any number of edges without reset: the accepted words, served one by one, keep the correspondence. -/
theorem State.Tracks.after_run {s t v : State} {k : Nat} (h : s.Tracks v) (hrst : ∀ e ∈ s.pins.take k, e.rst = false)
    (hx : core.run k s = Host.Outcome.next t) : ∃ u, serveAll (acceptedWords k s) v = .next u ∧ t.Tracks u := by
  induction k generalizing s v with
  | zero =>
    cases hx
    exact ⟨v, rfl, h⟩
  | succ k ih =>
    obtain ⟨s', hs, hrun⟩ := core_run_succ_cases hx
    obtain ⟨hrst0, hrst'⟩ := State.edgePins_rst hrst
    obtain ⟨v', hv, h'⟩ := h.after_step hrst0 hs
    obtain ⟨u, hu, ht⟩ := ih h' (step_pins hs ▸ hrst') hrun
    rw [acceptedWords_succ k hs, serveAll_append_next hv]
    exact ⟨u, hu, ht⟩

/-- Settles O21: the correspondence holds on the idle engine one starts from. -/
theorem portIsFunctionOfAcceptedWords : Obligations.PortIsFunctionOfAcceptedWords := by
  intro s t k hport hrst hx
  obtain ⟨u, hu, ht⟩ := (State.tracks_self hport).after_run hrst hx
  exact ⟨u, hu, ht.engine, ht.responses⟩

end Sys2Proof.Machine

/-! PROOFS. Word arithmetic bit by bit and as numbers (40_word_arithmetic.md), and runs that never stop (R131, R246). -/

namespace Sys2Proof.Machine

/-! ### Addition, rotation and shift (R120, R121, R122) -/

/-- The logical right shift as a number (R122). -/
theorem shr_toNat (x : Word) (n : Fin 32) : (shr x n).toNat = x.toNat / 2 ^ n.val := by
  rw [shr, BitVec.toNat_ushiftRight, Nat.shiftRight_eq_div_pow]

/-- Settles O5. -/
theorem addAndShiftAsNumbers : Obligations.AddAndShiftAsNumbers := ⟨BitVec.toNat_add, shr_toNat⟩

/-- For the counts 0 to 31 `rotr` is the library's rotation. -/
theorem rotr_eq_rotateRight (x : Word) (n : Fin 32) : rotr x n = x.rotateRight n.val :=
  (BitVec.rotateRight_eq_rotateRightAux_of_lt n.isLt).symm

/-- Bit `i` of a rotated word (R121). -/
theorem getLsbD_rotr (x : Word) (n : Fin 32) {i : Nat} (hi : i < 32) :
    (rotr x n).getLsbD i = x.getLsbD ((i + n.val) % 32) := by
  have hn := n.isLt
  rw [rotr_eq_rotateRight, BitVec.getLsbD_rotateRight_of_lt hn]
  by_cases hstay : i < 32 - n.val
  · rw [show (i + n.val) % 32 = n.val + i by omega]
    simp [hstay]
  · rw [show (i + n.val) % 32 = i - (32 - n.val) by omega]
    simp [hstay, hi]

/-- Settles O6. -/
theorem rotateMovesEachBit : Obligations.RotateMovesEachBit := fun x n _ hi => getLsbD_rotr x n hi

/-- Bit `i` of a shifted word: 0 where the shift has run out of bits (R122). -/
theorem getLsbD_shr (x : Word) (n : Fin 32) (i : Nat) :
    (shr x n).getLsbD i = (decide (i + n.val < 32) && x.getLsbD (i + n.val)) := by
  rw [shr, BitVec.getLsbD_ushiftRight, Nat.add_comm]
  by_cases hlast : i + n.val < 32
  · simp [hlast]
  · rw [BitVec.getLsbD_of_ge x _ (by omega), Bool.and_false]

/-- Settles O7: a bit of a xor is the xor of the bits of two rotations and a shift. -/
theorem expansionFunctionsBitByBit : Obligations.ExpansionFunctionsBitByBit := by
  intro x i hi
  constructor
  · rw [f1, BitVec.getLsbD_xor, BitVec.getLsbD_xor, getLsbD_rotr x 7 hi, getLsbD_rotr x 18 hi, getLsbD_shr]
    rfl
  · rw [f2, BitVec.getLsbD_xor, BitVec.getLsbD_xor, getLsbD_rotr x 17 hi, getLsbD_rotr x 19 hi, getLsbD_shr]
    rfl

/-! ### Tables, indices and bytes (R126 to R129) -/

/-- The last quarter's index needs no reduction: a word has four bytes (R70). -/
theorem top_byte_lt (x : Word) : x.toNat / 2 ^ 24 < 256 := by
  have := x.isLt
  omega

/-- Settles O8: reading a table of numbers is a read that always answers. -/
theorem generatorFunctionsOnTables : Obligations.GeneratorFunctionsOnTables := by
  intro T x y
  refine ⟨g_of_reads (m := Id) x y _ T fun _ => rfl, ?_⟩
  rw [Nat.mod_eq_of_lt (top_byte_lt x)]
  exact h_of_reads (m := Id) x _ T fun _ => rfl

/-- Going back in the table without wrapping, and with it (R128). -/
theorem back_eq_ite {j k : Nat} (hj : j < 1024) (hk : k < 1024) :
    back j k = if k ≤ j then j - k else j + 1024 - k := by
  unfold back
  split <;> omega

/-- Going back by 1023 is going forward by 1 (R128). -/
theorem back_last (j : Nat) : back j 1023 = (j + 1) % 1024 := by
  unfold back
  omega

/-- Settles O9. -/
theorem indexSubtractionWraps : Obligations.IndexSubtractionWraps :=
  ⟨fun j k => (sub1024_toNat j k).trans (back_eq_ite j.isLt k.isLt),
    fun j => (sub1024_toNat j 1023).trans (back_last j.toNat)⟩

/-- `le32` as a number (R129). -/
theorem le32_toNat (b0 b1 b2 b3 : Byte) :
    (le32 b0 b1 b2 b3).toNat = b0.toNat + 2 ^ 8 * b1.toNat + 2 ^ 16 * b2.toNat + 2 ^ 24 * b3.toNat := by
  rw [le32, toNat_append_eq, toNat_append_eq, toNat_append_eq]
  omega

/-- A word is assembled from its own bytes (R129). -/
theorem le32_byteOf (w : Word) : le32 (byteOf 0 w) (byteOf 1 w) (byteOf 2 w) (byteOf 3 w) = w := by
  have hw := w.isLt
  apply BitVec.eq_of_toNat_eq
  rw [le32_toNat, byteOf_toNat, byteOf_toNat, byteOf_toNat, byteOf_toNat]
  norm_num
  omega

/-- Settles O11. -/
theorem bytesAndWordsAreInverse : Obligations.BytesAndWordsAreInverse :=
  ⟨le32_toNat, fun w k => byteOf_toNat k w, le32_byteOf⟩

/-! ### Runs that never stop (R131, R246) -/

/-- An edge with `rst = 1` resets the engine (R270). -/
theorem step_reset {s : State} (hrst : s.edgePins.rst = true) : step s = .next s.dropEdge.resetEdge := by
  simp [step, clockEdge, hrst]

/-- A step under the invariant answers a next state: only a performed word could stop, and every word is answered. -/
theorem State.Inv.step_answers {s : State} (hs : s.Inv) : ∃ t, step s = .next t := by
  cases hrst : s.edgePins.rst with
  | true => exact ⟨_, step_reset hrst⟩
  | false =>
    cases hp : s.pending with
    | some rsp =>
      obtain ⟨-, t, hx, -⟩ := busyPortAcceptsNothing s rsp hrst hp
      exact ⟨t, hx⟩
    | none =>
      have hport := State.pending_eq_none_iff.mp hp
      cases hval : s.edgePins.cmdValid with
      | false => exact ⟨_, step_idle hrst hval hport⟩
      | true =>
        rw [step_of_accepts (State.accepts_of_valid hrst hport hval)]
        exact perform_answers _ hs.live_complete

/-- Settles O49, by induction on the number of edges: a step answers and keeps the invariant. -/
theorem invariantStatesRunForever : Obligations.InvariantStatesRunForever := by
  intro s hs k
  induction k generalizing s with
  | zero => exact ⟨s, core_run_zero s⟩
  | succ k ih =>
    obtain ⟨u, hu⟩ := hs.step_answers
    rw [core_run_succ k hu]
    exact ih u (everyStepKeepsInvariant s u hs hu)

end Sys2Proof.Machine

/-! PROOFS. Loading: `NEW`, `KEYB` and `IVB`, and the padding and truncation of a key and an IV (41_key_iv_load.md). -/

namespace Sys2Proof.Machine

/-! ### One command (R150, R151, R152) -/

/-- A command is answered with `OK` whatever it has done to the ten fields, if it left the host's side alone. -/
theorem State.answered_answer {s u : State} (d : Word) (hpins : u.pins = s.pins) (hdel : u.delivered = s.delivered) :
    s.Answered (u.answer d) ⟨.ok, 0#4, d⟩ := ⟨rfl, hpins, hdel⟩

/-- `NEW` does not look at the state (R150). -/
theorem exec_new (s : State) : exec .new s = .next (s.clear.answer 0#32) := rfl

/-- Settles O22: `NEW` leaves what `State.clear` leaves. -/
theorem newDropsInstance : Obligations.NewDropsInstance := fun s =>
  ⟨_, exec_new s, State.answered_answer _ s.clear_pins s.clear_delivered,
    fun _ => ⟨Vector.getElem_replicate _, Vector.getElem_replicate _⟩, s.clear_klen, s.clear_ivlen,
    s.clear_ctr, s.clear_rdy, s.clear_dir, s.clear_err, fun j => ⟨Memory.read_nil j, Memory.read_nil j⟩⟩

/-- Settles O23: `KEYB` does what `State.pushKey` does, at every count. -/
theorem keybAppendsOneByte : Obligations.KeybAppendsOneByte := by
  intro b s hr
  have htables (j : Nat) : Memory.read (s.pushKey b).p j = Memory.read s.p j ∧
      Memory.read (s.pushKey b).q j = Memory.read s.q j := by simp
  exact ⟨_, exec_keyb_of_empty b hr, State.answered_answer _ (s.pushKey_pins b) (s.pushKey_delivered b),
    fun k => s.pushKey_key b k.val k.isLt, s.pushKey_klen_toNat b, s.pushKey_iv b, s.pushKey_ivlen b, s.pushKey_ctr b,
    (s.pushKey_rdy b).trans hr, s.pushKey_dir b, s.pushKey_err b, htables⟩

/-- Settles O24: `IVB` does what `State.pushIv` does, at every count. -/
theorem ivbAppendsOneByte : Obligations.IvbAppendsOneByte := by
  intro b s hr
  have htables (j : Nat) : Memory.read (s.pushIv b).p j = Memory.read s.p j ∧
      Memory.read (s.pushIv b).q j = Memory.read s.q j := by simp
  exact ⟨_, exec_ivb_of_empty b hr, State.answered_answer _ (s.pushIv_pins b) (s.pushIv_delivered b),
    fun k => s.pushIv_iv b k.val k.isLt, s.pushIv_ivlen_toNat b, s.pushIv_key b, s.pushIv_klen b, s.pushIv_ctr b,
    (s.pushIv_rdy b).trans hr, s.pushIv_dir b, s.pushIv_err b, htables⟩

/-! ### A buffer after a number of bytes (R153, R154) -/

/-- `KLEN` or `IVLEN` after these bytes have been sent into an empty buffer: their number or 32 (R24, R154). -/
def loadedCount (bytes : List Byte) : BitVec 6 := BitVec.ofNat 6 (min bytes.length 32)

theorem loadedCount_toNat (bytes : List Byte) : (loadedCount bytes).toNat = min bytes.length 32 := by
  rw [loadedCount, BitVec.toNat_ofNat]
  omega

/-- One more byte is counted below 32 and not counted at 32. -/
theorem loadedCount_append_toNat (pre : List Byte) (b : Byte) : (loadedCount (pre ++ [b])).toNat =
    if (loadedCount pre).toNat < 32 then (loadedCount pre).toNat + 1 else (loadedCount pre).toNat := by
  rw [loadedCount_toNat, loadedCount_toNat, List.length_append, List.length_singleton]
  split <;> omega

theorem padded_getElem (bytes : List Byte) {k : Nat} (hk : k < 32) : (padded bytes)[k] = bytes.getD k 0x00#8 :=
  Vector.getElem_ofFn hk

/-- One more byte stands at the entry the count points to; at 32 there is no such entry and the byte is cut off. -/
theorem padded_append_getElem (pre : List Byte) (b : Byte) {k : Nat} (hk : k < 32) :
    (padded (pre ++ [b]))[k] = if k = (loadedCount pre).toNat then b else (padded pre)[k] := by
  rw [padded_getElem _ hk, padded_getElem _ hk, loadedCount_toNat]
  obtain hlt | heq | hgt := Nat.lt_trichotomy k pre.length
  · rw [List.getD_append _ _ _ _ hlt, if_neg (by omega)]
  · subst heq
    rw [if_pos (by omega), List.getD_append_right _ _ _ _ le_rfl, Nat.sub_self, List.getD_cons_zero]
  · rw [if_neg (by omega), List.getD_eq_default _ _ (by simpa using hgt), List.getD_eq_default _ _ hgt.le]

/-- The engine after these bytes have been sent by `KEYB` into an empty key buffer. -/
def State.withKey (s : State) (bytes : List Byte) : State :=
  { s with key := padded bytes, klen := loadedCount bytes }

/-- The engine after these bytes have been sent by `IVB` into an empty IV buffer. -/
def State.withIv (s : State) (bytes : List Byte) : State :=
  { s with iv := padded bytes, ivlen := loadedCount bytes }

@[simp] theorem State.withKey_rdy (s : State) (bytes : List Byte) : (s.withKey bytes).rdy = s.rdy := by
  simp [State.withKey]

/-- The next key byte (R151). -/
theorem State.pushKey_withKey (s : State) (pre : List Byte) (b : Byte) :
    (s.withKey (pre ++ [b])).SameEngine ((s.withKey pre).pushKey b) := by
  constructor
  case key => exact Vector.ext fun k hk => (State.pushKey_key _ b k hk).trans (padded_append_getElem pre b hk).symm
  case klen =>
    exact BitVec.eq_of_toNat_eq ((State.pushKey_klen_toNat _ b).trans (loadedCount_append_toNat pre b).symm)
  all_goals simp [State.withKey]

@[simp] theorem State.withIv_rdy (s : State) (bytes : List Byte) : (s.withIv bytes).rdy = s.rdy := by
  simp [State.withIv]

/-- The next IV byte (R152). -/
theorem State.pushIv_withIv (s : State) (pre : List Byte) (b : Byte) :
    (s.withIv (pre ++ [b])).SameEngine ((s.withIv pre).pushIv b) := by
  constructor
  case iv => exact Vector.ext fun k hk => (State.pushIv_iv _ b k hk).trans (padded_append_getElem pre b hk).symm
  case ivlen =>
    exact BitVec.eq_of_toNat_eq ((State.pushIv_ivlen_toNat _ b).trans (loadedCount_append_toNat pre b).symm)
  all_goals simp [State.withIv]

/-! ### A sequence of bytes (R153, R154) -/

/-- An answered instruction, its word served: the ten fields are those the answer was given on. -/
theorem serve_of_exec_answer {i : Instr} {s u : State} {d : Word} (hx : exec i s = .next (u.answer d)) :
    ∃ t, serve (encode i) s = .next t ∧ u.SameEngine t :=
  ⟨_, serve_of_perform ((perform_of_decode (decode_encode i)).trans hx),
    (u.sameEngine_answer d).trans (u.answer d).sameEngine_deliver⟩

/-- A command word served does the same in two engines that agree on the ten fields. -/
theorem serve_sameEngine {cw : PortWord} {s s' t : State} (h : s.SameEngine s') (hx : serve cw s = .next t) :
    ∃ t', serve cw s' = .next t' ∧ t.SameEngine t' := by
  cases hp : perform cw s with
  | next u =>
    rw [serve_of_perform hp] at hx
    cases hx
    obtain ⟨u', hp', hu, -⟩ := perform_sameEngine h hp
    exact ⟨_, serve_of_perform hp', u.sameEngine_deliver.symm.trans (hu.trans u'.sameEngine_deliver)⟩
  | fault f => simp [serve, hp] at hx
  | refused r => simp [serve, hp] at hx

/-- Bytes sent one command each: if every command takes the engine of the bytes so far to that of one byte more, the
sequence takes it to that of all of them. -/
theorem serveAll_map_of_serve {word : Byte → PortWord} {loaded : List Byte → State}
    (hserve : ∀ pre b, ∃ t, serve (word b) (loaded pre) = .next t ∧ (loaded (pre ++ [b])).SameEngine t)
    (bytes : List Byte) {pre : List Byte} {u : State} (hu : (loaded pre).SameEngine u) :
    ∃ t, serveAll (bytes.map word) u = .next t ∧ (loaded (pre ++ bytes)).SameEngine t := by
  induction bytes generalizing pre u with
  | nil => exact ⟨u, rfl, by rwa [List.append_nil]⟩
  | cons b rest ih =>
    obtain ⟨v, hv, hload⟩ := hserve pre b
    obtain ⟨v', hv', hsame⟩ := serve_sameEngine hu hv
    obtain ⟨t, ht, hload'⟩ := ih (hload.trans hsame)
    rw [List.append_assoc] at hload'
    exact ⟨t, (serveAll_append_next (serveAll_singleton hv')).trans ht, hload'⟩

/-- The words of `KEY bytes` sent into an empty key buffer while no instance is live (R113, R153, R154). -/
theorem serveAll_keyWords {s : State} (bytes : List Byte) (hr : s.rdy = false) (hlen : s.klen = 0)
    (hkey : s.key = padded []) : ∃ t, serveAll (keyWords bytes) s = .next t ∧ (s.withKey bytes).SameEngine t := by
  refine serveAll_map_of_serve (pre := []) (loaded := s.withKey) (fun pre b => ?_) bytes ?_
  · obtain ⟨t, ht, hsame⟩ := serve_of_exec_answer (exec_keyb_of_empty b ((s.withKey_rdy pre).trans hr))
    exact ⟨t, ht, (s.pushKey_withKey pre b).trans hsame⟩
  · exact ⟨hkey, rfl, hlen, rfl, rfl, rfl, rfl, rfl, rfl, rfl⟩

/-- The words of `IV bytes` sent into an empty IV buffer while no instance is live (R113, R153, R154). -/
theorem serveAll_ivWords {s : State} (bytes : List Byte) (hr : s.rdy = false) (hlen : s.ivlen = 0)
    (hiv : s.iv = padded []) : ∃ t, serveAll (ivWords bytes) s = .next t ∧ (s.withIv bytes).SameEngine t := by
  refine serveAll_map_of_serve (pre := []) (loaded := s.withIv) (fun pre b => ?_) bytes ?_
  · obtain ⟨t, ht, hsame⟩ := serve_of_exec_answer (exec_ivb_of_empty b ((s.withIv_rdy pre).trans hr))
    exact ⟨t, ht, (s.pushIv_withIv pre b).trans hsame⟩
  · exact ⟨rfl, hiv, rfl, hlen, rfl, rfl, rfl, rfl, rfl, rfl⟩

/-- Settles O25. -/
theorem loadingPadsAndTruncates : Obligations.LoadingPadsAndTruncates := fun bytes _ hr =>
  ⟨serveAll_keyWords bytes hr, serveAll_ivWords bytes hr⟩

end Sys2Proof.Machine

/-! PROOFS. `INIT` and the commands of INITIALIZE (42_init_expander_warmup.md). -/

namespace Sys2Proof.Machine

/-! ### One `INIT` (R170 to R176, R179) -/

/-- The tables `State.create` leaves are those of the instance of the two buffers (R171 to R175). -/
theorem State.create_isInstance (s : State) (m : Mode) : ∃ P Q : Nat → Word, IsInstance s.key s.iv P Q ∧
    HoldsWords (s.create m).p P ∧ HoldsWords (s.create m).q Q := by
  rw [State.create_p, State.create_q]
  exact ⟨_, _, instanceOf_isInstance s.key s.iv, holdsWords_ofWords _, holdsWords_ofWords _⟩

/-- `INIT` while no instance is live is answered `OK` and leaves the ten fields of `State.create` (R170, R176). -/
theorem exec_init_sameEngine {s : State} (m : Mode) (hr : s.rdy = false) :
    ∃ t, exec (.init m) s = .next t ∧ s.Answered t ⟨.ok, 0#4, 0#32⟩ ∧ (s.create m).SameEngine t :=
  ⟨_, exec_init_of_empty m hr,
    ⟨State.respond_pending _ _ _, (State.respond_pins _ _ _).trans (s.create_pins m),
      (State.respond_delivered _ _ _).trans (s.create_delivered m)⟩,
    (s.create m).sameEngine_respond _ _⟩

/-- Settles O26: `INIT` leaves what `State.create` leaves. -/
theorem initBuildsInstanceOfBuffers : Obligations.InitBuildsInstanceOfBuffers := by
  intro m s hr
  obtain ⟨t, hx, ha, ht⟩ := exec_init_sameEngine m hr
  have hctr : (s.create m).ctr = 0 := (s.create_ctr m).trans (instanceOf_ctr s.key s.iv)
  refine ⟨t, hx, ha, ?_, ht.ctr.trans hctr, ht.dir.trans (s.create_dir m), ht.rdy.trans (s.create_rdy m),
    ht.key.trans (s.create_key m), ht.iv.trans (s.create_iv m), ht.klen.trans (s.create_klen m),
    ht.ivlen.trans (s.create_ivlen m), ht.err.trans (s.create_err m)⟩
  rw [ht.p, ht.q]
  exact s.create_isInstance m

/-- Settles O27: the tables and the counter are those of `instanceOf`, a function of the two buffers. -/
theorem initDependsOnlyOnBuffers : Obligations.InitDependsOnlyOnBuffers := by
  intro m m' s s' t t' hr hr' hkey hiv hx hx'
  obtain ⟨u, hu, -, ht⟩ := exec_init_sameEngine m hr
  obtain ⟨u', hu', -, ht'⟩ := exec_init_sameEngine m' hr'
  cases hx.symm.trans hu
  cases hx'.symm.trans hu'
  simp [ht.p, ht.q, ht.ctr, ht'.p, ht'.q, ht'.ctr, hkey, hiv]

/-! ### Sequences of commands that are all performed -/

/-- The command words take `s` to `t` one by one, and each is answered with one response, `OK`. -/
structure State.PerformsAll (s : State) (ws : List PortWord) (t : State) : Prop where
  run : serveAll ws s = .next t
  responses : ∃ rs, t.delivered = s.delivered ++ rs ∧ rs.length = ws.length ∧ ∀ r ∈ rs, r.st = .ok

theorem State.performsAll_nil (s : State) : s.PerformsAll [] s := ⟨rfl, [], by simp⟩

theorem State.PerformsAll.append {s t u : State} {xs ys : List PortWord} (hx : s.PerformsAll xs t)
    (hy : t.PerformsAll ys u) : s.PerformsAll (xs ++ ys) u := by
  obtain ⟨rs, hdel, hlen, hok⟩ := hx.responses
  obtain ⟨rs', hdel', hlen', hok'⟩ := hy.responses
  refine ⟨(serveAll_append_next hx.run).trans hy.run, rs ++ rs', ?_, ?_, ?_⟩
  · rw [hdel', hdel, List.append_assoc]
  · rw [List.length_append, List.length_append, hlen, hlen']
  · exact fun r hr => (List.mem_append.mp hr).elim (hok r) (hok' r)

/-- One instruction answered `OK`, and its response delivered. -/
theorem State.performsAll_singleton {s t : State} {i : Instr} {rsp : Response} (hx : exec i s = .next t)
    (ha : s.Answered t rsp) (hok : rsp.st = .ok) : s.PerformsAll [encode i] t.deliver where
  run := serveAll_singleton (serve_of_perform ((perform_of_decode (decode_encode i)).trans hx))
  responses := ⟨[rsp], by simp [ha.pending, ha.delivered], rfl, by simpa using hok⟩

/-- Bytes sent one command each while no instance is live, where every such command is answered `OK` and makes none. -/
theorem State.performsAll_bytes {instr : Byte → Instr}
    (hexec : ∀ b (s : State), s.rdy = false →
      ∃ t, exec (instr b) s = .next t ∧ s.Answered t ⟨.ok, 0#4, 0#32⟩ ∧ t.rdy = false)
    {bytes : List Byte} {s t : State} (hr : s.rdy = false)
    (hrun : serveAll (bytes.map fun b => encode (instr b)) s = .next t) :
    s.PerformsAll (bytes.map fun b => encode (instr b)) t := by
  induction bytes generalizing s with
  | nil =>
    cases hrun
    exact State.performsAll_nil _
  | cons b rest ih =>
    obtain ⟨u, hx, ha, hu⟩ := hexec b s hr
    have hfirst := State.performsAll_singleton hx ha rfl
    exact hfirst.append (ih (u.deliver_rdy.trans hu) ((serveAll_append_next hfirst.run).symm.trans hrun))

/-! ### The commands of INITIALIZE (R111, R181) -/

/-- The empty buffer is all zero bytes (R39, R150). -/
theorem padded_nil : padded [] = Vector.replicate 32 0x00#8 :=
  Vector.ext fun k hk => by rw [padded_getElem [] hk, List.getD_nil, Vector.getElem_replicate]

theorem State.SameEngine.withKey {s t : State} (h : s.SameEngine t) (bytes : List Byte) :
    (s.withKey bytes).SameEngine (t.withKey bytes) := by
  constructor <;> simp [State.withKey, h.iv, h.ivlen, h.p, h.q, h.ctr, h.rdy, h.dir, h.err]

theorem State.SameEngine.withIv {s t : State} (h : s.SameEngine t) (bytes : List Byte) :
    (s.withIv bytes).SameEngine (t.withIv bytes) := by
  constructor <;> simp [State.withIv, h.key, h.klen, h.p, h.q, h.ctr, h.rdy, h.dir, h.err]

/-- `NEW` is performed in every state (R150). -/
theorem State.performsAll_new (s : State) : ∃ t, s.PerformsAll [encode .new] t ∧ s.clear.SameEngine t :=
  ⟨_, State.performsAll_singleton (exec_new s) (State.answered_answer _ s.clear_pins s.clear_delivered) rfl,
    (s.clear.sameEngine_answer 0#32).trans (s.clear.answer 0#32).sameEngine_deliver⟩

/-- The words of `KEY bytes` into an empty key buffer while no instance is live are all performed (R113, R151). -/
theorem State.performsAll_keyWords {s : State} (bytes : List Byte) (hr : s.rdy = false) (hlen : s.klen = 0)
    (hkey : s.key = padded []) : ∃ t, s.PerformsAll (keyWords bytes) t ∧ (s.withKey bytes).SameEngine t := by
  obtain ⟨t, hrun, hsame⟩ := serveAll_keyWords bytes hr hlen hkey
  refine ⟨t, State.performsAll_bytes (fun b s hr => ?_) hr hrun, hsame⟩
  exact ⟨_, exec_keyb_of_empty b hr, State.answered_answer _ (s.pushKey_pins b) (s.pushKey_delivered b),
    (s.pushKey_rdy b).trans hr⟩

/-- The words of `IV bytes` into an empty IV buffer while no instance is live are all performed (R113, R152). -/
theorem State.performsAll_ivWords {s : State} (bytes : List Byte) (hr : s.rdy = false) (hlen : s.ivlen = 0)
    (hiv : s.iv = padded []) : ∃ t, s.PerformsAll (ivWords bytes) t ∧ (s.withIv bytes).SameEngine t := by
  obtain ⟨t, hrun, hsame⟩ := serveAll_ivWords bytes hr hlen hiv
  refine ⟨t, State.performsAll_bytes (fun b s hr => ?_) hr hrun, hsame⟩
  exact ⟨_, exec_ivb_of_empty b hr, State.answered_answer _ (s.pushIv_pins b) (s.pushIv_delivered b),
    (s.pushIv_rdy b).trans hr⟩

/-- `NEW` and the bytes of a key and an IV, from any state: an engine with no instance and the two buffers loaded. -/
theorem State.performsAll_load (s : State) (key iv : List Byte) :
    ∃ t, s.PerformsAll (encode .new :: (keyWords key ++ ivWords iv)) t ∧
      ((s.clear.withKey key).withIv iv).SameEngine t := by
  obtain ⟨u, hnew, hu⟩ := s.performsAll_new
  obtain ⟨v, hkey, hv⟩ := State.performsAll_keyWords key hu.rdy hu.klen (hu.key.trans padded_nil.symm)
  have hv : (s.clear.withKey key).SameEngine v := (hu.withKey key).trans hv
  obtain ⟨t, hiv, ht⟩ := State.performsAll_ivWords iv hv.rdy hv.ivlen (hv.iv.trans padded_nil.symm)
  exact ⟨t, hnew.append (hkey.append hiv), (hv.withIv iv).trans ht⟩

theorem initializeWords_eq (key iv : List Byte) (m : Mode) :
    initializeWords key iv m = (encode .new :: (keyWords key ++ ivWords iv)) ++ [encode (.init m)] := rfl

theorem length_initializeWords (key iv : List Byte) (m : Mode) :
    (initializeWords key iv m).length = key.length + iv.length + 2 := by
  simp [initializeWords, keyWords, ivWords, Nat.add_assoc]

/-- Settles O28: `NEW` and the bytes leave the padded buffers and no instance, and `INIT` makes theirs. -/
theorem initializeCommandsMakeInstance : Obligations.InitializeCommandsMakeInstance := by
  intro key iv m s _
  obtain ⟨u, hload, hu⟩ := s.performsAll_load key iv
  have hkey : u.key = padded key := by simp [hu.key, State.withKey, State.withIv]
  have hiv : u.iv = padded iv := by simp [hu.iv, State.withIv]
  have herr : u.err = s.err := by simp [hu.err, State.withKey, State.withIv]
  obtain ⟨t, hx, ha, hinst, hctr, hdir, hrdy, -, -, -, -, hterr⟩ := initBuildsInstanceOfBuffers m u hu.rdy
  rw [hkey, hiv] at hinst
  have hall : s.PerformsAll (initializeWords key iv m) t.deliver :=
    initializeWords_eq key iv m ▸ hload.append (State.performsAll_singleton hx ha rfl)
  obtain ⟨rs, hdel, hlen, hok⟩ := hall.responses
  refine ⟨t.deliver, rs, hall.run, hdel, hlen.trans (length_initializeWords key iv m), hok, ?_, ?_⟩
  · rwa [State.deliver_p, State.deliver_q]
  · simp [hctr, hdir, hrdy, hterr, herr]

end Sys2Proof.Machine

/-! PROOFS. The generator step: its indices, and what a performed `XOR` makes of it (43_generator.md). -/

namespace Sys2Proof.Machine

/-! ### The indices of a step (R192, R199) -/

/-- Different distances lead back to different entries (R128). -/
theorem sub1024_injective (j : Index) : Function.Injective (sub1024 j) := fun _ _ h => sub_right_injective h

/-- Settles O10: the five indices are those at the distances 0, 3, 10, 12 and 1023 back from `j`. -/
theorem stepIndicesPairwiseDistinct : Obligations.StepIndicesPairwiseDistinct := by
  intro j
  have hj : sub1024 j 0 = j := BitVec.sub_zero j
  have hdist : ([0, 3, 10, 12, 1023] : List Index).Nodup := by decide
  have hmap := hdist.map (sub1024_injective j)
  rwa [List.map_cons, hj] at hmap

/-! ### A performed `XOR` (R210) -/

/-- A generator step leaves the host's side alone. -/
theorem State.genStep_host {s u : State} {ks : Word} (hg : s.genStep = .ok (ks, u)) :
    u.pins = s.pins ∧ u.delivered = s.delivered := by
  obtain ⟨w, rfl⟩ := State.genStep_cases hg
  exact ⟨s.writeEntry_pins _ _ w, s.writeEntry_delivered _ _ w⟩

/-- `XOR` with a legal count in a live engine is answered with the masked data and leaves the ten fields of its generator
step (R210, R214). -/
theorem exec_xor_sameEngine {n : BitVec 4} (d : Word) {ks : Word} {s u : State} (hn1 : 1 ≤ n.toNat) (hn4 : n.toNat ≤ 4)
    (hr : s.rdy = true) (hg : s.genStep = .ok (ks, u)) :
    ∃ t, exec (.xor n d) s = .next t ∧ s.Answered t ⟨.ok, n, xorLanes n d ks⟩ ∧ u.SameEngine t := by
  obtain ⟨hpins, hdel⟩ := State.genStep_host hg
  exact ⟨_, exec_xor_of_step ((countLegal_iff n).mpr ⟨hn1, hn4⟩) hr hg, ⟨State.respond_pending _ _ _, hpins, hdel⟩,
    u.sameEngine_respond _ _⟩

/-- The counter runs up to 2047 and is 0 after it (R191). -/
theorem nextCounter_eq_ite (ctr : BitVec 11) :
    (nextCounter ctr).toNat = if ctr.toNat = 2047 then 0 else ctr.toNat + 1 := by
  have := ctr.isLt
  rw [nextCounter_toNat]
  split <;> omega

/-- Settles O29: the generator step is the P-active one. -/
theorem xorTakesPActiveStep : Obligations.XorTakesPActiveStep := by
  intro n d s P Q hn1 hn4 hr hc hP hQ
  obtain ⟨t, hx, ha, ht⟩ := exec_xor_sameEngine d hn1 hn4 hr (State.genStep_p hc hP hQ)
  have hread (k : Nat) : Memory.read t.p k =
      if k = s.ctr.toNat then some (stepNew P Q s.ctr.toNat) else Memory.read s.p k := by
    rw [ht.p, Memory.read_write]
  refine ⟨t, hx, ha, (hread _).trans (if_pos rfl), fun k hk => (hread k).trans (if_neg hk), fun k => by rw [ht.q], ?_,
    ht.key, ht.iv, ht.klen, ht.ivlen, ht.rdy.trans hr, ht.dir, ht.err⟩
  rw [ht.ctr, nextCounter_eq_ite, if_neg (by omega)]

/-- Settles O30: the generator step is the Q-active one. -/
theorem xorTakesQActiveStep : Obligations.XorTakesQActiveStep := by
  intro n d s P Q hn1 hn4 hr hc hP hQ j
  obtain ⟨t, hx, ha, ht⟩ := exec_xor_sameEngine d hn1 hn4 hr (State.genStep_q hc hP hQ)
  have hread (k : Nat) : Memory.read t.q k = if k = j then some (stepNew Q P j) else Memory.read s.q k := by
    rw [ht.q, Memory.read_write]
  exact ⟨t, hx, ha, (hread j).trans (if_pos rfl), fun k hk => (hread k).trans (if_neg hk), fun k => by rw [ht.p],
    by rw [ht.ctr, nextCounter_eq_ite], ht.key, ht.iv, ht.klen, ht.ivlen, ht.rdy.trans hr, ht.dir, ht.err⟩

/-- Settles O34: the step of the complete tables is the step of every engine with these tables and this counter. -/
theorem keystreamIndependentOfData : Obligations.KeystreamIndependentOfData := by
  intro s hs hr
  obtain ⟨hp, hq⟩ := hs.live_complete hr
  obtain ⟨ks, u, hg⟩ := State.genStep_of_complete hp hq
  refine ⟨ks, u.p, u.q, u.ctr, fun s' n d hp' hq' hc' hr' hn1 hn4 => ?_⟩
  obtain ⟨t, hx, ha, ht⟩ := exec_xor_sameEngine d hn1 hn4 hr' (State.genStep_congr hp' hq' hc' hg)
  exact ⟨t, hx, ha.pending, ht.p, ht.q, ht.ctr⟩

end Sys2Proof.Machine

/-! PROOFS. The lanes of `XOR`, TRANSFORM on a live engine, and engines given the same words (44_xor_transform.md). -/

namespace Sys2Proof.Machine

/-! ### The same words on two engines (R220) -/

/-- A command word served does the same in two engines that agree on the ten fields, and adds the same response. -/
theorem serve_sameEngine_response {cw : PortWord} {s s' t : State} (h : s.SameEngine s') (hx : serve cw s = .next t) :
    ∃ t' rsp, serve cw s' = .next t' ∧ t.SameEngine t' ∧ t.delivered = s.delivered ++ [rsp] ∧
      t'.delivered = s'.delivered ++ [rsp] := by
  obtain ⟨t', hx', hsame⟩ := serve_sameEngine h hx
  cases hp : perform cw s with
  | next u =>
    obtain ⟨u', hp', -, hpend⟩ := perform_sameEngine h hp
    obtain ⟨rsp, ha⟩ := perform_answered hp
    obtain ⟨rsp', ha'⟩ := perform_answered hp'
    cases hx.symm.trans (serve_of_perform hp)
    cases hx'.symm.trans (serve_of_perform hp')
    refine ⟨_, rsp, hx', hsame, ?_, ?_⟩
    · rw [State.deliver_delivered, ha.delivered, ha.pending, Option.toList_some]
    · rw [State.deliver_delivered, ha'.delivered, hpend, ha.pending, Option.toList_some]
  | fault f => simp [serve, hp] at hx
  | refused r => simp [serve, hp] at hx

theorem serveAll_cons_next {cw : PortWord} {ws : List PortWord} {s t : State} (hx : serve cw s = .next t) :
    serveAll (cw :: ws) s = serveAll ws t := by
  rw [serveAll, hx]

/-- A sequence that is served to its end has a first word served and a rest that is. -/
theorem serveAll_cons_cases {cw : PortWord} {ws : List PortWord} {s t : State} (hx : serveAll (cw :: ws) s = .next t) :
    ∃ u, serve cw s = .next u ∧ serveAll ws u = .next t := by
  cases hs : serve cw s with
  | next u => exact ⟨u, rfl, (serveAll_cons_next hs).symm.trans hx⟩
  | fault f => simp [serveAll, hs] at hx
  | refused r => simp [serveAll, hs] at hx

/-- A sequence of words does the same in two engines that agree on the ten fields, and adds the same responses. -/
theorem serveAll_sameEngine {ws : List PortWord} {s s' t : State} (h : s.SameEngine s')
    (hx : serveAll ws s = .next t) :
    ∃ t' rs, serveAll ws s' = .next t' ∧ t.SameEngine t' ∧ t.delivered = s.delivered ++ rs ∧
      t'.delivered = s'.delivered ++ rs := by
  induction ws generalizing s s' with
  | nil =>
    cases hx
    exact ⟨s', [], rfl, h, (List.append_nil _).symm, (List.append_nil _).symm⟩
  | cons cw ws ih =>
    obtain ⟨u, hu, hrest⟩ := serveAll_cons_cases hx
    obtain ⟨u', rsp, hu', hsame, hdel, hdel'⟩ := serve_sameEngine_response h hu
    obtain ⟨t', rs, hx', ht, htd, htd'⟩ := ih hsame hrest
    refine ⟨t', rsp :: rs, (serveAll_cons_next hu').trans hx', ht, ?_, ?_⟩
    · rw [htd, hdel, List.append_assoc, List.singleton_append]
    · rw [htd', hdel', List.append_assoc, List.singleton_append]

/-- Settles O57, by induction on the words. -/
theorem sameWordsGiveSameResponses : Obligations.SameWordsGiveSameResponses := by
  intro ws s s' t rs _ _ hsame hx hdel
  obtain ⟨t', rs', hx', ht, hrs, hrs'⟩ := serveAll_sameEngine hsame hx
  obtain rfl : rs' = rs := List.append_cancel_left (hrs.symm.trans hdel)
  exact ⟨t', hx', ht, hrs'⟩

/-! ### One `XOR` (R210, R211) -/

/-- Settles O31: the tables of a live engine are complete, so the generator step finds every entry. -/
theorem xorIsPerformedWhenLive : Obligations.XorIsPerformedWhenLive := by
  intro n d s hn1 hn4 hr hs
  obtain ⟨hp, hq⟩ := hs.live_complete hr
  obtain ⟨ks, u, hg⟩ := State.genStep_of_complete hp hq
  obtain ⟨t, hx, ha, ht⟩ := exec_xor_sameEngine d hn1 hn4 hr hg
  obtain ⟨w, rfl⟩ := State.genStep_cases hg
  exact ⟨t, ks, hx, ha, by rw [ht.ctr, nextCounter_toNat]⟩

/-- A lane of the mask is all ones below the count and 0 from it on (R210). -/
theorem byteOf_laneMask (n : BitVec 4) (k : Fin 4) :
    byteOf k (laneMask n) = if k.val < n.toNat then BitVec.allOnes 8 else 0x00#8 := by
  apply BitVec.eq_of_getLsbD_eq
  intro i hi
  rw [byteOf, BitVec.getLsbD_extractLsb', getLsbD_laneMask n (by omega)]
  split
  · rw [BitVec.getLsbD_allOnes, decide_eq_true (show 8 * k.val + i < 8 * n.toNat by omega), Bool.and_true]
  · simp [show ¬ 8 * k.val + i < 8 * n.toNat by omega]

/-- An output lane, whatever the count is (R210, R211). -/
theorem byteOf_xorLanes (n : BitVec 4) (d ks : Word) (k : Fin 4) :
    byteOf k (xorLanes n d ks) = if k.val < n.toNat then byteOf k d ^^^ byteOf k ks else 0x00#8 := by
  have hlane : byteOf k (xorLanes n d ks) = (byteOf k d ^^^ byteOf k ks) &&& byteOf k (laneMask n) := by
    simp only [byteOf, xorLanes, BitVec.extractLsb'_and, BitVec.extractLsb'_xor]
  rw [hlane, byteOf_laneMask]
  split
  · exact BitVec.and_allOnes
  · exact BitVec.and_zero

/-- Settles O32: no lane sees another. -/
theorem outputLanesAreIndependent : Obligations.OutputLanesAreIndependent :=
  fun n d ks k _ _ => byteOf_xorLanes n d ks k

/-! ### The commands of TRANSFORM (R112, R215) -/

/-- Up to four bytes in the lanes of a data word, the first in lane 0 (R101). -/
def packLanes (bytes : List Byte) : Word := le32 (bytes.getD 0 0) (bytes.getD 1 0) (bytes.getD 2 0) (bytes.getD 3 0)

/-- The `XOR` that carries these bytes. -/
def xorBeat (bytes : List Byte) : Instr := .xor (BitVec.ofNat 4 bytes.length) (packLanes bytes)

theorem beatCount_toNat {bytes : List Byte} (h4 : bytes.length ≤ 4) :
    (BitVec.ofNat 4 bytes.length).toNat = bytes.length := by
  rw [BitVec.toNat_ofNat]
  omega

/-- TRANSFORM of a buffer that is not empty is the `XOR` of its first four bytes, or of those there are, and TRANSFORM of
the rest. -/
theorem transformWords_eq_cons {buf : List Byte} (hne : buf ≠ []) :
    transformWords buf = encode (xorBeat (buf.take 4)) :: transformWords (buf.drop 4) := by
  match buf with
  | _ :: _ :: _ :: _ :: _ => rfl
  | [_, _, _] => rfl
  | [_, _] => rfl
  | [_] => rfl
  | [] => exact absurd rfl hne

/-- Induction on a buffer in beats of four bytes. -/
theorem beat_induction {motive : List Byte → Prop} (empty : motive [])
    (beat : ∀ buf, buf ≠ [] → motive (buf.drop 4) → motive buf) (buf : List Byte) : motive buf := by
  by_cases hne : buf = []
  · exact hne ▸ empty
  · exact beat buf hne (beat_induction empty beat (buf.drop 4))
termination_by buf.length
decreasing_by
  have := List.length_pos_iff.mpr hne
  rw [List.length_drop]
  omega

/-- The words of a buffer cut at a multiple of four bytes (R219). -/
theorem transformWords_append {a : List Byte} (b : List Byte) (h4 : a.length % 4 = 0) :
    transformWords (a ++ b) = transformWords a ++ transformWords b := by
  induction a using beat_induction with
  | empty => rfl
  | beat a hne ih =>
    have hpos := List.length_pos_iff.mpr hne
    have hle : 4 ≤ a.length := by omega
    rw [transformWords_eq_cons hne, transformWords_eq_cons (List.append_ne_nil_of_left_ne_nil hne b),
      List.take_append_of_le_length hle, List.drop_append_of_le_length hle, List.cons_append,
      ih (by rw [List.length_drop]; omega)]

/-- Settles O40: the words of the joined buffer are those of the first and then those of the second. -/
theorem cutsAtFourBytesAreInvisible : Obligations.CutsAtFourBytesAreInvisible := by
  refine ⟨rfl, fun a b s t h4 hx => ?_⟩
  rw [transformWords_append b h4, serveAll_append_next hx]

/-! ### The bytes of one response (R101, R211) -/

/-- Lane `k` of the packed bytes is byte `k`, or 0 where there is none (R101). -/
theorem byteOf_packLanes (bytes : List Byte) (k : Fin 4) : byteOf k (packLanes bytes) = bytes.getD k.val 0 := by
  apply BitVec.eq_of_toNat_eq
  rw [byteOf_toNat, packLanes, le32_toNat]
  fin_cases k <;> simp <;> omega

theorem length_wordBytes (w : Word) : (wordBytes w).length = 4 := by
  rw [wordBytes, List.length_map, List.length_finRange]

/-- The response to a beat carries its bytes, each XORed with the keystream byte of its lane (R211). -/
theorem bytes_xorBeat_response {bytes : List Byte} (h : bytes.length ≤ 4) (ks : Word) :
    Response.bytes ⟨.ok, BitVec.ofNat 4 bytes.length, xorLanes (BitVec.ofNat 4 bytes.length) (packLanes bytes) ks⟩ =
      List.zipWith (· ^^^ ·) bytes (wordBytes ks) := by
  have hn := beatCount_toNat h
  apply List.ext_getElem
  · simp [Response.bytes, length_wordBytes, hn, h]
  · intro k hk hk'
    have hlt : k < bytes.length := List.lt_length_left_of_zipWith hk'
    simp [Response.bytes, wordBytes, byteOf_xorLanes, byteOf_packLanes, hn, hlt]

/-! ### XOR with a keystream, on lists of bytes (R62) -/

/-- The bytes that meet the first keystream bytes, and those that meet the rest. -/
theorem zipWith_append_right {α β γ : Type} (f : α → β → γ) (l : List α) (xs ys : List β) :
    List.zipWith f l (xs ++ ys) = List.zipWith f (l.take xs.length) xs ++ List.zipWith f (l.drop xs.length) ys := by
  induction xs generalizing l with
  | nil => simp
  | cons x xs ih =>
    cases l with
    | nil => simp
    | cons a l => simp [ih]

/-- XOR with the same keystream twice gives the buffer back (R123). -/
theorem zipWith_xor_cancel {buf ks : List Byte} (h : buf.length ≤ ks.length) :
    List.zipWith (· ^^^ ·) (List.zipWith (· ^^^ ·) buf ks) ks = buf := by
  apply List.ext_getElem
  · simp [h]
  · intro k _ _
    simp

/-- The difference of two buffers under one keystream is the difference of the buffers (R221). -/
theorem zipWith_xor_difference {buf buf' ks : List Byte} (h : buf.length ≤ ks.length) (h' : buf'.length ≤ ks.length) :
    List.zipWith (· ^^^ ·) (List.zipWith (· ^^^ ·) buf ks) (List.zipWith (· ^^^ ·) buf' ks) =
      List.zipWith (· ^^^ ·) buf buf' := by
  apply List.ext_getElem
  · simp [h, h']
  · intro k _ _
    have hbyte (a b c : Byte) : (a ^^^ c) ^^^ (b ^^^ c) = a ^^^ b := by
      rw [BitVec.xor_comm b, BitVec.xor_assoc, ← BitVec.xor_assoc c, BitVec.xor_self, BitVec.zero_xor]
    simp only [List.getElem_zipWith, hbyte]

/-! ### One `XOR` in an engine that holds a generator (R200, R210, R214) -/

/-- Two states agree on every field of R21 but `P`, `Q` and `CTR`. -/
structure State.SameButGenerator (s t : State) : Prop where
  rdy : t.rdy = s.rdy
  key : t.key = s.key
  iv : t.iv = s.iv
  klen : t.klen = s.klen
  ivlen : t.ivlen = s.ivlen
  dir : t.dir = s.dir
  err : t.err = s.err

theorem State.SameButGenerator.refl (s : State) : s.SameButGenerator s := ⟨rfl, rfl, rfl, rfl, rfl, rfl, rfl⟩

theorem State.SameButGenerator.trans {s t u : State} (h : s.SameButGenerator t) (h' : t.SameButGenerator u) :
    s.SameButGenerator u :=
  ⟨h'.rdy.trans h.rdy, h'.key.trans h.key, h'.iv.trans h.iv, h'.klen.trans h.klen, h'.ivlen.trans h.ivlen,
    h'.dir.trans h.dir, h'.err.trans h.err⟩

theorem State.SameEngine.sameButGenerator {s t : State} (h : s.SameEngine t) : s.SameButGenerator t :=
  ⟨h.rdy, h.key, h.iv, h.klen, h.ivlen, h.dir, h.err⟩

/-- A generator is held by every engine with these tables and this counter. -/
theorem State.Holds.of_eq {s t : State} {g : Stream} (h : s.Holds g) (hp : t.p = s.p) (hq : t.q = s.q)
    (hctr : t.ctr = s.ctr) : t.Holds g := by
  constructor
  · rw [hp]; exact h.p
  · rw [hq]; exact h.q
  · rw [hctr]; exact h.ctr

/-- Every live engine that commands can reach holds a generator (R41(c)). -/
theorem State.Inv.holds {s : State} (hs : s.Inv) (hr : s.rdy = true) : ∃ g, s.Holds g := by
  obtain ⟨hp, hq⟩ := hs.live_complete hr
  obtain ⟨P, hP⟩ := (Memory.complete_iff_holdsWords _).mp hp
  obtain ⟨Q, hQ⟩ := (Memory.complete_iff_holdsWords _).mp hq
  exact ⟨⟨P, Q, s.ctr.toNat⟩, hP, hQ, rfl⟩

/-- A table after a write holds the words it held, with the new one in its place. -/
theorem HoldsWords.write {t : Table} {T : Nat → Word} (h : HoldsWords t T) (j : Nat) (w : Word) :
    HoldsWords (Memory.write t j w) fun k => if k = j then w else T k := by
  intro k hk
  rw [Memory.read_write, h k hk]
  exact (apply_ite some _ _ _).symm

/-- The generator step of the state is the step of the generator it holds (R193, R194). -/
theorem State.Holds.genStep {s : State} {g : Stream} (h : s.Holds g) :
    ∃ u, s.genStep = .ok (g.word, u) ∧ u.Holds g.next ∧ s.SameButGenerator u := by
  have hctr : (nextCounter s.ctr).toNat = (g.count + 1) % 2048 := by rw [nextCounter_toNat, h.ctr]
  by_cases hc : g.count < 1024
  · have hg := State.genStep_p (h.ctr ▸ hc) h.p h.q
    have hword : g.word = stepWord g.tableP g.tableQ g.count := if_pos hc
    rw [h.ctr, ← hword] at hg
    refine ⟨_, hg, ?_, ⟨rfl, rfl, rfl, rfl, rfl, rfl, rfl⟩⟩
    rw [Stream.next, if_pos hc]
    exact ⟨h.p.write _ _, h.q, hctr⟩
  · have hg := State.genStep_q (h.ctr ▸ Nat.le_of_not_lt hc) h.p h.q
    have hword : g.word = stepWord g.tableQ g.tableP (g.count - 1024) := if_neg hc
    rw [h.ctr, ← hword] at hg
    refine ⟨_, hg, ?_, ⟨rfl, rfl, rfl, rfl, rfl, rfl, rfl⟩⟩
    rw [Stream.next, if_neg hc]
    exact ⟨h.p, h.q.write _ _, hctr⟩

/-- A beat in a live engine: one response `OK` with the bytes XORed, the generator one step on, nothing else changed. -/
theorem State.Holds.serve_beat {s : State} {g : Stream} {bytes : List Byte} (h : s.Holds g) (hr : s.rdy = true)
    (hne : bytes ≠ []) (h4 : bytes.length ≤ 4) :
    ∃ t rsp, serve (encode (xorBeat bytes)) s = .next t ∧ t.delivered = s.delivered ++ [rsp] ∧ rsp.st = .ok ∧
      rsp.bytes = List.zipWith (· ^^^ ·) bytes (wordBytes g.word) ∧ t.Holds g.next ∧ s.SameButGenerator t := by
  have hpos := List.length_pos_iff.mpr hne
  have hn := beatCount_toNat h4
  obtain ⟨u, hg, hu, hsame⟩ := h.genStep
  obtain ⟨t, hx, ha, ht⟩ := exec_xor_sameEngine (packLanes bytes) (hn.symm ▸ hpos) (hn.symm ▸ h4) hr hg
  have hdeliver : u.SameEngine t.deliver := ht.trans t.sameEngine_deliver
  refine ⟨t.deliver, _, serve_of_perform ((perform_of_decode (decode_encode (xorBeat bytes))).trans hx), ?_, rfl,
    bytes_xorBeat_response h4 g.word, hu.of_eq hdeliver.p hdeliver.q hdeliver.ctr, hsame.trans hdeliver.sameButGenerator⟩
  rw [State.deliver_delivered, ha.delivered, ha.pending, Option.toList_some]

/-! ### TRANSFORM in an engine that holds a generator (R217) -/

/-- The generator steps a TRANSFORM of this buffer takes: a word for every four bytes begun (R217). -/
def transformSteps (buf : List Byte) : Nat := (buf.length + 3) / 4

/-- The keystream bytes of the next steps of a generator, in order (R211). -/
def Stream.bytes (g : Stream) (steps : Nat) : List Byte := (g.words steps).flatMap wordBytes

theorem Stream.bytes_succ (g : Stream) (steps : Nat) : g.bytes (steps + 1) = wordBytes g.word ++ g.next.bytes steps := by
  rw [Stream.bytes, Stream.words, List.flatMap_cons, Stream.bytes]

theorem Stream.length_bytes (g : Stream) (steps : Nat) : (g.bytes steps).length = 4 * steps := by
  induction steps generalizing g with
  | zero => rfl
  | succ steps ih =>
    rw [g.bytes_succ, List.length_append, length_wordBytes, ih]
    omega

theorem transformSteps_of_ne_nil {buf : List Byte} (hne : buf ≠ []) :
    transformSteps buf = transformSteps (buf.drop 4) + 1 := by
  have := List.length_pos_iff.mpr hne
  rw [transformSteps, transformSteps, List.length_drop]
  omega

/-- There is a keystream byte for every byte of the buffer. -/
theorem Stream.length_le_bytes (g : Stream) (buf : List Byte) : buf.length ≤ (g.bytes (transformSteps buf)).length := by
  rw [g.length_bytes, transformSteps]
  omega

/-- TRANSFORM of a buffer takes `s`, which holds `g`, to `t`, and these are its responses (R217). -/
structure State.Transforms (s : State) (g : Stream) (buf : List Byte) (rs : List Response) (t : State) : Prop where
  run : serveAll (transformWords buf) s = .next t
  delivered : t.delivered = s.delivered ++ rs
  length : rs.length = transformSteps buf
  ok : ∀ r ∈ rs, r.st = .ok
  output : outputBytes rs = List.zipWith (· ^^^ ·) buf (g.bytes (transformSteps buf))
  holds : t.Holds (g.advance (transformSteps buf))
  frame : s.SameButGenerator t

/-- TRANSFORM on a live engine that holds a generator (R217), by induction on the beats of the buffer. -/
theorem State.Holds.transforms {s : State} {g : Stream} (h : s.Holds g) (hr : s.rdy = true) (buf : List Byte) :
    ∃ rs t, s.Transforms g buf rs t := by
  induction buf using beat_induction generalizing s g with
  | empty => exact ⟨[], s, rfl, (List.append_nil _).symm, rfl, by simp, rfl, h, .refl s⟩
  | beat buf hne ih =>
    have hbeat : buf.take 4 ≠ [] := by simpa using hne
    obtain ⟨u, rsp, hserve, hdel, hok, hbytes, hu, hframe⟩ := h.serve_beat hr hbeat (List.length_take_le 4 buf)
    obtain ⟨rs, t, ht⟩ := ih hu (hframe.rdy.trans hr)
    have hsteps := transformSteps_of_ne_nil hne
    refine ⟨rsp :: rs, t, ?_, ?_, ?_, List.forall_mem_cons.mpr ⟨hok, ht.ok⟩, ?_, ?_, hframe.trans ht.frame⟩
    · rw [transformWords_eq_cons hne, serveAll_cons_next hserve, ht.run]
    · rw [ht.delivered, hdel, List.append_assoc, List.singleton_append]
    · rw [List.length_cons, ht.length, hsteps]
    · rw [hsteps, g.bytes_succ, zipWith_append_right, length_wordBytes, outputBytes, List.flatMap_cons, hbytes,
        ← ht.output, outputBytes]
    · rw [hsteps]
      exact ht.holds

/-- A TRANSFORM that has run is the one of R217. -/
theorem State.Holds.transforms_of_run {s t : State} {g : Stream} {buf : List Byte} {rs : List Response}
    (h : s.Holds g) (hr : s.rdy = true) (hx : serveAll (transformWords buf) s = .next t)
    (hdel : t.delivered = s.delivered ++ rs) : s.Transforms g buf rs t := by
  obtain ⟨rs', t', ht⟩ := h.transforms hr buf
  cases ht.run.symm.trans hx
  obtain rfl : rs' = rs := List.append_cancel_left (ht.delivered.symm.trans hdel)
  exact ht

theorem State.Transforms.length_output {s t : State} {g : Stream} {buf : List Byte} {rs : List Response}
    (h : s.Transforms g buf rs t) : (outputBytes rs).length = buf.length := by
  rw [h.output, List.length_zipWith, Nat.min_eq_left (g.length_le_bytes buf)]

/-- Settles O36. -/
theorem transformXorsKeystream : Obligations.TransformXorsKeystream := by
  intro s g buf hr _ h
  obtain ⟨rs, t, ht⟩ := h.transforms hr buf
  have hf := ht.frame
  exact ⟨t, rs, ht.run, ht.delivered, ht.length, ht.ok, ht.length_output, ht.output, ht.holds, hf.rdy.trans hr, hf.key,
    hf.iv, hf.klen, hf.ivlen, hf.dir, hf.err⟩

/-! ### Two engines that hold one generator (R218, R221) -/

/-- TRANSFORM of the output of a TRANSFORM, from the same generator, has the buffer for its output (R218, R200). -/
theorem State.Transforms.involution {s t s' t' : State} {g : Stream} {buf : List Byte} {rs rs' : List Response}
    (h : s.Transforms g buf rs t) (h' : s'.Transforms g (outputBytes rs) rs' t') : outputBytes rs' = buf := by
  have hsteps : transformSteps (outputBytes rs) = transformSteps buf := by
    rw [transformSteps, transformSteps, h.length_output]
  rw [h'.output, hsteps, h.output, zipWith_xor_cancel (g.length_le_bytes buf)]

/-- Settles O38: the engine that runs the output through holds the same generator. -/
theorem transformIsItsOwnInverse : Obligations.TransformIsItsOwnInverse := by
  intro s s' t buf rs hs hr _ hr' _ hp hq hc hx hdel
  obtain ⟨g, hg⟩ := hs.holds hr
  have ht := hg.transforms_of_run hr hx hdel
  obtain ⟨rs', t', ht'⟩ := (hg.of_eq hp hq hc).transforms hr' (outputBytes rs)
  exact ⟨t', rs', ht'.run, ht'.delivered, ht.involution ht'⟩

/-- Settles O39: both outputs are XORed with the same keystream bytes. -/
theorem sameKeystreamLeaksDifference : Obligations.SameKeystreamLeaksDifference := by
  intro s s' t t' buf buf' rs rs' hs hr _ hr' _ hp hq hc hlen hx hdel hx' hdel'
  obtain ⟨g, hg⟩ := hs.holds hr
  have ht := hg.transforms_of_run hr hx hdel
  have ht' := (hg.of_eq hp hq hc).transforms_of_run hr' hx' hdel'
  have hsteps : transformSteps buf' = transformSteps buf := by rw [transformSteps, transformSteps, hlen]
  have hbuf := g.length_le_bytes buf
  rw [ht.output, ht'.output, hsteps, zipWith_xor_difference hbuf (hlen ▸ hbuf)]

/-! ### Fresh instances (R181, R218) -/

/-- The generator of the instance of a key and an IV (R171 to R176, R179). -/
def instanceStream (key iv : List Byte) : Stream :=
  ⟨Words.fn (instanceOf (padded key) (padded iv)).p, Words.fn (instanceOf (padded key) (padded iv)).q, 0⟩

/-- The tables and the counter `INIT` leaves are those of the instance of the two buffers (R179). -/
theorem State.create_holds {s : State} {key iv : List Byte} (m : Mode) (hkey : s.key = padded key)
    (hiv : s.iv = padded iv) : (s.create m).Holds (instanceStream key iv) := by
  constructor
  · rw [State.create_p, hkey, hiv]
    exact holdsWords_ofWords _
  · rw [State.create_q, hkey, hiv]
    exact holdsWords_ofWords _
  · rw [State.create_ctr, instanceOf_ctr]
    rfl

/-- INITIALIZE leaves a live engine with the generator of the key and the IV, whatever the engine was and whatever the
mode is (R179, R181). -/
theorem serveAll_initializeWords (key iv : List Byte) (m : Mode) (s : State) :
    ∃ t, serveAll (initializeWords key iv m) s = .next t ∧ t.rdy = true ∧ t.Holds (instanceStream key iv) := by
  obtain ⟨u, hload, hu⟩ := s.performsAll_load key iv
  have hkey : u.key = padded key := hu.key
  have hiv : u.iv = padded iv := hu.iv
  obtain ⟨v, hx, -, hv⟩ := exec_init_sameEngine m hu.rdy
  have hv : (u.create m).SameEngine v.deliver := hv.trans v.sameEngine_deliver
  have hserve := serveAll_singleton (serve_of_perform ((perform_of_decode (decode_encode (.init m))).trans hx))
  refine ⟨v.deliver, ?_, hv.rdy.trans (u.create_rdy m), (u.create_holds m hkey hiv).of_eq hv.p hv.q hv.ctr⟩
  rw [initializeWords_eq, serveAll_append_next hload.run, hserve]

/-- Settles O37: both instances start from the generator of the key and the IV. -/
theorem encryptThenDecryptRoundTrips : Obligations.EncryptThenDecryptRoundTrips := by
  intro key iv buf m m' s s' _ _
  obtain ⟨u, hu, hr, hg⟩ := serveAll_initializeWords key iv m s
  obtain ⟨u', hu', hr', hg'⟩ := serveAll_initializeWords key iv m' s'
  obtain ⟨rs, t, ht⟩ := hg.transforms hr buf
  obtain ⟨rs', t', ht'⟩ := hg'.transforms hr' (outputBytes rs)
  exact ⟨u, t, rs, u', t', rs', hu, ht.run, ht.delivered, hu', ht'.run, ht'.delivered, ht.involution ht'⟩

end Sys2Proof.Machine

/-! PROOFS. Refusals: which commands are refused, and that a refusal changes nothing but `ERR` (60_exceptions.md). -/

namespace Sys2Proof.Machine

/-! ### The refusals of an instruction (R241 to R245) -/

/-- A refusal sets `ERR` and leaves the other nine fields of R21 (R241). -/
theorem State.sameEngine_refuse (s : State) (e : Status) : State.SameEngine { s with err := true } (s.refuse e) :=
  State.sameEngine_respond { s with err := true } _ _

/-- An instruction that R100 refuses with `e` answers `{e, 0, 0}` and sets `ERR`, and nothing else happens (R241, R246). -/
theorem exec_refuses {i : Instr} {s : State} {e : Status} (h : refusalStatus s.rdy i = some e) :
    ∃ t, exec i s = .next t ∧ s.Answered t ⟨e, 0#4, 0#32⟩ ∧ State.SameEngine { s with err := true } t :=
  ⟨s.refuse e, exec_of_refusalStatus h, ⟨s.refuse_pending e, s.refuse_pins e, s.refuse_delivered e⟩,
    s.sameEngine_refuse e⟩

/-- A well-formed `XOR` is out of sequence while no instance is live (R244). -/
theorem refusalStatus_xor_of_empty {n : BitVec 4} {d : Word} (h : (Instr.xor n d).WellFormed) :
    refusalStatus false (.xor n d) = some .errSeq :=
  if_pos h

/-- The count of an `XOR` is looked at before `RDY` (R245). -/
theorem refusalStatus_xor_of_bad_count (rdy : Bool) {n : BitVec 4} (d : Word) (h : n.toNat = 0 ∨ 5 ≤ n.toNat) :
    refusalStatus rdy (.xor n d) = some .errArg :=
  if_neg (by rw [countLegal_iff]; omega)

/-- Settles O42: R100 refuses the three reserved rows whatever `RDY` is. -/
theorem reservedRowsAreRefused : Obligations.ReservedRowsAreRefused := by
  rintro i s (⟨x, rfl⟩ | ⟨x, rfl⟩ | ⟨x, rfl⟩) <;> exact exec_refuses rfl

/-- Settles O43: `KEYB`, `IVB` and `INIT` in a live engine, then `XOR` while no instance is live. -/
theorem outOfSequenceCommandsAreRefused : Obligations.OutOfSequenceCommandsAreRefused := by
  rintro i s (⟨hr, hi⟩ | ⟨hr, n, d, rfl, hw⟩)
  · have hlive : refusalStatus true i = some .errSeq := by
      obtain ⟨b, rfl⟩ | ⟨b, rfl⟩ | ⟨m, rfl⟩ := hi <;> rfl
    exact exec_refuses (by rw [hr, hlive])
  · exact exec_refuses (by rw [hr, refusalStatus_xor_of_empty hw])

/-- Settles O44. -/
theorem xorWithBadCountIsRefused : Obligations.XorWithBadCountIsRefused := fun _ d s hbad =>
  exec_refuses (refusalStatus_xor_of_bad_count s.rdy d hbad)

/-! ### A response with an error status comes from a refusal (R241, R246) -/

/-- Every effect of an instruction is a refusal or an answer `OK`. -/
theorem Effect.refused_or_ok {s t : State} {i : Instr} (he : Effect s t i) :
    (∃ e, t = s.refuse e) ∨ ∃ u wait n d, t = State.respond u wait ⟨.ok, n, d⟩ := by
  cases he with
  | refused _ e _ ht => exact .inl ⟨e, ht⟩
  | new ht => exact .inr ⟨_, _, _, _, ht⟩
  | keyb _ _ ht => exact .inr ⟨_, _, _, _, ht⟩
  | ivb _ _ ht => exact .inr ⟨_, _, _, _, ht⟩
  | init _ _ ht => exact .inr ⟨_, _, _, _, ht⟩
  | xor _ _ _ _ _ _ _ ht => exact .inr ⟨_, _, _, _, ht⟩
  | stat ht => exact .inr ⟨_, _, _, _, ht⟩

/-- A command word that is answered with an error status was refused. -/
theorem perform_eq_refuse_of_not_ok {cw : PortWord} {s t : State} {rsp : Response} (hx : perform cw s = .next t)
    (hp : t.pending = some rsp) (hne : rsp.st ≠ .ok) : ∃ e, t = s.refuse e := by
  obtain ⟨i, -, he⟩ | ⟨r, -, ht⟩ := perform_cases hx
  · obtain href | ⟨u, wait, n, d, rfl⟩ := he.refused_or_ok
    · exact href
    · cases hp
      exact absurd rfl hne
  · exact ⟨.errArg, ht⟩

/-- Settles O45: a word answered with an error status has made the state `State.refuse` makes. -/
theorem refusalsArePrecise : Obligations.RefusalsArePrecise := by
  intro cw s t rsp hx hp hne
  obtain ⟨e, rfl⟩ := perform_eq_refuse_of_not_ok hx hp hne
  obtain rfl : ⟨e, 0#4, 0#32⟩ = rsp := Option.some.inj ((s.refuse_pending e).symm.trans hp)
  exact ⟨rfl, rfl, s.sameEngine_refuse e⟩

end Sys2Proof.Machine

/-! PROOFS. Reset and the arrival of a response (70_reset_and_hazards.md). -/

namespace Sys2Proof.Machine

/-! ### Reset (R270, R272) -/

/-- `cmd_ready` is 0 while `rst` is 1, so nothing is accepted (R270). -/
theorem State.accepts_of_rst {s : State} {e : Pins} (h : e.rst = true) : s.accepts e = none := by
  simp [State.accepts, State.cmdReady, h]

/-- A reset edge gives the ten fields of the reset state (R39, R270). -/
theorem State.sameEngine_resetEdge (s : State) : State.reset.SameEngine s.resetEdge := by constructor <;> rfl

/-- Settles O13: the edge ends in `State.resetEdge`, whose port is idle. -/
theorem resetEdgeAbandonsEverything : Obligations.ResetEdgeAbandonsEverything := fun s hrst =>
  ⟨State.accepts_of_rst hrst, s.dropEdge.resetEdge, step_reset hrst, s.dropEdge.sameEngine_resetEdge, rfl,
    State.cmdReady_iff.mpr ⟨rfl, s.dropEdge.resetEdge_pending⟩, rfl, rfl⟩

/-! ### From acceptance to `rsp_valid` (R281, R283) -/

/-- The state in which the wait of the response `rsp` is over: `wait` edges' inputs are taken off (log 1), and nothing
of the engine has changed. -/
def State.waited (s : State) (wait : Nat) (rsp : Response) : State :=
  { s with port := .inFlight 0 rsp, pins := s.pins.drop wait }

theorem State.sameEngine_waited (s : State) (wait : Nat) (rsp : Response) : s.SameEngine (s.waited wait rsp) := by
  constructor <;> rfl

theorem State.waited_zero {s : State} {rsp : Response} (hport : s.port = .inFlight 0 rsp) : s.waited 0 rsp = s := by
  rw [State.waited, ← hport, List.drop_zero]

/-- Waiting one edge and then `wait` more is waiting `wait + 1`. -/
theorem State.waited_succ (s : State) (wait : Nat) (rsp : Response) :
    State.waited { s.dropEdge with port := .inFlight wait rsp } wait rsp = s.waited (wait + 1) rsp := by
  simp [State.waited, State.dropEdge]

/-- A valid response is on `rsp_word` (R91). -/
theorem State.rspWord_of_port {s : State} {rsp : Response} (hport : s.port = .inFlight 0 rsp) :
    s.rspWord = some rsp.word := by
  simp [State.rspWord, State.rspValid_of_port hport, State.pending_eq_some_iff.mpr ⟨0, hport⟩]

/-- Each edge without reset takes one from the wait, so the wait is over after as many edges as it counts (R281). -/
theorem core_run_wait {s : State} {wait : Nat} {rsp : Response} (hport : s.port = .inFlight wait rsp)
    (hrst : ∀ e ∈ s.pins.take wait, e.rst = false) :
    core.run wait s = Host.Outcome.next (s.waited wait rsp) := by
  induction wait generalizing s with
  | zero => rw [State.waited_zero hport, core_run_zero]
  | succ wait ih =>
    obtain ⟨hnow, hlater⟩ := State.edgePins_rst hrst
    rw [core_run_succ wait (step_wait hnow hport), ← s.waited_succ]
    exact ih rfl hlater

/-- Settles O20: after the wait the response stands at the port, whatever latency was chosen. -/
theorem responseBecomesValid : Obligations.ResponseBecomesValid := fun s wait rsp hport hrst =>
  ⟨s.waited wait rsp, core_run_wait hport hrst, State.rspValid_of_port rfl, State.rspWord_of_port rfl,
    s.sameEngine_waited wait rsp⟩

end Sys2Proof.Machine
